-- ==== Sys2Proof/Word.lean ====
section
/-! DEFINITION. The bit-pattern types of the block: the operation word, the 16-bit register and
sample pattern, the byte. -/

namespace Sys2Proof

/-- A 32-bit operation word, and the width of the NCO phase (30_encoding.md R80, 10_state.md R37). -/
abbrev Word := BitVec 32

/-- A 16-bit pattern: a register on the register port, a phase, a sample (20_memory.md R60, R62, R63). -/
abbrev Half := BitVec 16

/-- An 8-bit value: a line byte, the sync shift register, a selector (10_state.md R25, 20_memory.md R60). -/
abbrev Byte := BitVec 8

end Sys2Proof
end

