-- ==== Sys2Proof/Syntax.lean ====
section
/-! DEFINITION. The twelve operations of the block (30_encoding.md R84), one constructor per row of the
opcode table, with the operands of R83. -/

namespace Sys2Proof

/-- An operation with its operands (30_encoding.md R83, R84). Counts and the sample are numbers, as the
assembler writes them (R88); `Instr.WellFormed` says which of them the encoding admits. -/
inductive Instr where
  /-- `NOP` (40_system_ops.md R100). -/
  | nop
  /-- `RDR sel` (40_system_ops.md R101). -/
  | rdr (sel : Byte)
  /-- `WRR sel, v` (40_system_ops.md R102). -/
  | wrr (sel : Byte) (v : Half)
  /-- `RST` (40_system_ops.md R103). -/
  | rst
  /-- `DSAMP x`, `x` a signed sample (41_demodulator.md R120). -/
  | dsamp (x : Int)
  /-- `DESYNC` (41_demodulator.md R141). -/
  | desync
  /-- `DRST` (40_system_ops.md R104). -/
  | drst
  /-- `MBIT v` (42_modulator.md R160). -/
  | mbit (v : Bool)
  /-- `MBYTE b` (42_modulator.md R162). -/
  | mbyte (b : Byte)
  /-- `MPRE n`, `n` a number of preamble bytes (42_modulator.md R163). -/
  | mpre (n : Nat)
  /-- `MSIL n`, `n` a number of silent samples (42_modulator.md R164). -/
  | msil (n : Nat)
  /-- `MRST` (40_system_ops.md R105). -/
  | mrst
  deriving DecidableEq, Repr

/-- The operation set without operands: the rows of the opcode map (30_encoding.md R84). -/
inductive Mnemonic where
  | nop | rdr | wrr | rst | dsamp | desync | drst | mbit | mbyte | mpre | msil | mrst
  deriving DecidableEq, Repr

/-- Which row of the opcode map an operation is. -/
def Instr.mnemonic : Instr → Mnemonic
  | .nop => .nop
  | .rdr _ => .rdr
  | .wrr _ _ => .wrr
  | .rst => .rst
  | .dsamp _ => .dsamp
  | .desync => .desync
  | .drst => .drst
  | .mbit _ => .mbit
  | .mbyte _ => .mbyte
  | .mpre _ => .mpre
  | .msil _ => .msil
  | .mrst => .mrst

end Sys2Proof
end

