-- ==== Sys2Proof/WellFormed.lean ====
section
/-! DEFINITION. Which operations have an encoding: the operand ranges of 30_encoding.md R83. -/

namespace Sys2Proof

/-- The operand of each operation lies in the range of its field (30_encoding.md R83): a `DSAMP` sample in
-32768..32767, an `MPRE` count in 0..65535, an `MSIL` count in 0..16777215. Selectors, values, bytes and
bits are in range by their types. -/
def Instr.wellFormed : Instr → Bool
  | .nop => true
  | .rdr _ => true
  | .wrr _ _ => true
  | .rst => true
  | .dsamp x => -32768 ≤ x && x ≤ 32767
  | .desync => true
  | .drst => true
  | .mbit _ => true
  | .mbyte _ => true
  | .mpre n => n ≤ 65535
  | .msil n => n ≤ 16777215
  | .mrst => true

/-- `Instr.wellFormed` as a proposition. -/
abbrev Instr.WellFormed (i : Instr) : Prop := i.wellFormed = true

end Sys2Proof
end

