-- ==== Sys2Proof/Decode.lean ====
section
/-! DEFINITION. The decoder of the operation word, total on all 32-bit words and rejecting by name
(30_encoding.md R81 to R86), the encoder written from the same tables, and the opcode map as data (R84). -/

namespace Sys2Proof

/-- Field `opcode`, bits 31:24 (30_encoding.md R81). -/
def opcodeField (w : Word) : BitVec 8 := w.extractLsb' 24 8

/-- Field `sel`, bits 23:16 (30_encoding.md R81). -/
def selField (w : Word) : BitVec 8 := w.extractLsb' 16 8

/-- Field `imm`, bits 15:0 (30_encoding.md R81). -/
def immField (w : Word) : BitVec 16 := w.extractLsb' 0 16

/-- The 24-bit count of format `N`, bits 23:0: `sel * 65536 + imm` (30_encoding.md R83). -/
def countField (w : Word) : Nat := (selField w).toNat * 65536 + (immField w).toNat

/-- Bits 31:16 of a word, the half that `ERRINFO` records (10_state.md R36). -/
def highHalf (w : Word) : Half := w.extractLsb' 16 16

/-- The seven formats (30_encoding.md R82). -/
inductive Format where
  | Z | R | W | I | B | T | N
  deriving DecidableEq, Repr

/-- Every bit below the opcode that the format does not use is 0 (30_encoding.md R82). -/
def Format.unusedBitsZero (f : Format) (w : Word) : Bool :=
  match f with
  | .Z => selField w == 0 && immField w == 0
  | .R => immField w == 0
  | .W => true
  | .I => selField w == 0
  | .B => selField w == 0 && (immField w).extractLsb' 8 8 == 0
  | .T => selField w == 0 && (immField w).extractLsb' 1 15 == 0
  | .N => true

/-- Why a word is illegal: the two cases of 30_encoding.md R86. -/
inductive IllegalWord where
  /-- (a) the opcode is one of the 244 unassigned values. -/
  | unassignedOpcode (opcode : Byte)
  /-- (b) an assigned opcode with a non-zero bit where its format requires 0. -/
  | unusedBitSet (opcode : Byte)
  deriving DecidableEq, Repr

/-- The instruction `i` if the word keeps the format's zero bits, else the named rejection. -/
def acceptFormat (f : Format) (w : Word) (i : Instr) : Except IllegalWord Instr :=
  if f.unusedBitsZero w then .ok i else .error (.unusedBitSet (opcodeField w))

/-- The decoder: total, and a function of the word alone (30_encoding.md R83 to R86). -/
def decode (w : Word) : Except IllegalWord Instr :=
  if opcodeField w = 0x00#8 then acceptFormat .Z w .nop
  else if opcodeField w = 0x01#8 then acceptFormat .R w (.rdr (selField w))
  else if opcodeField w = 0x02#8 then acceptFormat .W w (.wrr (selField w) (immField w))
  else if opcodeField w = 0x03#8 then acceptFormat .Z w .rst
  else if opcodeField w = 0x10#8 then acceptFormat .I w (.dsamp (immField w).toInt)
  else if opcodeField w = 0x11#8 then acceptFormat .Z w .desync
  else if opcodeField w = 0x12#8 then acceptFormat .Z w .drst
  else if opcodeField w = 0x20#8 then acceptFormat .T w (.mbit ((immField w).getLsbD 0))
  else if opcodeField w = 0x21#8 then acceptFormat .B w (.mbyte ((immField w).extractLsb' 0 8))
  else if opcodeField w = 0x22#8 then acceptFormat .I w (.mpre (immField w).toNat)
  else if opcodeField w = 0x23#8 then acceptFormat .N w (.msil (countField w))
  else if opcodeField w = 0x24#8 then acceptFormat .Z w .mrst
  else .error (.unassignedOpcode (opcodeField w))

/-- The word with the given fields (30_encoding.md R81). -/
def packWord (opcode : BitVec 8) (sel : BitVec 8) (imm : BitVec 16) : Word := opcode ++ sel ++ imm

/-- The encoder: the word of an operation (30_encoding.md R82 to R84 and the Encoding line of each rule).
An operand outside its field's range is cut to the field (DESIGN CHOICE, log entry 12). -/
def encode : Instr → Word
  | .nop => packWord 0x00 0 0
  | .rdr sel => packWord 0x01 sel 0
  | .wrr sel v => packWord 0x02 sel v
  | .rst => packWord 0x03 0 0
  | .dsamp x => packWord 0x10 0 (BitVec.ofInt 16 x)
  | .desync => packWord 0x11 0 0
  | .drst => packWord 0x12 0 0
  | .mbit v => packWord 0x20 0 (BitVec.ofNat 16 v.toNat)
  | .mbyte b => packWord 0x21 0 (0x00#8 ++ b)
  | .mpre n => packWord 0x22 0 (BitVec.ofNat 16 n)
  | .msil n => packWord 0x23 (BitVec.ofNat 8 (n / 65536)) (BitVec.ofNat 16 n)
  | .mrst => packWord 0x24 0 0

/-- One row of the opcode map: a word `w` is the operation iff `(w AND mask) = value` (30_encoding.md R84). -/
structure OpcodeRow where
  mnemonic : Mnemonic
  format : Format
  mask : Word
  value : Word
  deriving DecidableEq, Repr

/-- The opcode map (30_encoding.md R84), as data beside the decoder; `decode` is written from the fields
and formats of R81 and R82, so that the two can be compared. -/
def opcodeTable : List OpcodeRow :=
  [⟨.nop, .Z, 0xFFFFFFFF#32, 0x00000000#32⟩,
   ⟨.rdr, .R, 0xFF00FFFF#32, 0x01000000#32⟩,
   ⟨.wrr, .W, 0xFF000000#32, 0x02000000#32⟩,
   ⟨.rst, .Z, 0xFFFFFFFF#32, 0x03000000#32⟩,
   ⟨.dsamp, .I, 0xFFFF0000#32, 0x10000000#32⟩,
   ⟨.desync, .Z, 0xFFFFFFFF#32, 0x11000000#32⟩,
   ⟨.drst, .Z, 0xFFFFFFFF#32, 0x12000000#32⟩,
   ⟨.mbit, .T, 0xFFFFFFFE#32, 0x20000000#32⟩,
   ⟨.mbyte, .B, 0xFFFFFF00#32, 0x21000000#32⟩,
   ⟨.mpre, .I, 0xFFFF0000#32, 0x22000000#32⟩,
   ⟨.msil, .N, 0xFF000000#32, 0x23000000#32⟩,
   ⟨.mrst, .Z, 0xFFFFFFFF#32, 0x24000000#32⟩]

/-- The word matches the row. -/
def OpcodeRow.matchesWord (r : OpcodeRow) (w : Word) : Bool := w &&& r.mask == r.value

/-- The word whose low `nbits` bits are those of `w`, every bit above them 0. -/
def tableWord (nbits w : Nat) : Word := BitVec.ofNat 32 (w % 2 ^ nbits)

/-- The instruction the decoder reads from a word given as the opcode table numbers its bits. The operation
word is presented whole, so no byte order arises (20_memory.md R63 (c)). -/
def decodeTableWord (nbits w : Nat) : Option Instr :=
  match decode (tableWord nbits w) with
  | .ok i => some i
  | .error _ => none

end Sys2Proof
end

