-- ==== Sys2Proof/Config.lean ====
section
/-! DEFINITION. The configuration record `Cfg` (00_scope.md R8), its constraints, and the default
profile `P0` with the tables of 10_state.md R40 and R41. -/

namespace Sys2Proof

/-- A non-negative rational number of hertz, as numerator and denominator (00_scope.md R8, R10). -/
structure Ratio where
  num : Nat
  den : Nat
  deriving DecidableEq, Repr

/-- `a < b` for rationals whose denominators are positive. -/
def Ratio.lt (a b : Ratio) : Bool := a.num * b.den < b.num * a.den

/-- The rational is greater than zero. -/
def Ratio.positive (a : Ratio) : Bool := 0 < a.num && 0 < a.den

/-- What the integrator becomes after a bit is latched (00_scope.md R8, 41_demodulator.md R131). -/
inductive IntReset where
  | clear
  | halve
  deriving DecidableEq, Repr

/-- The configuration record of one instance of the block (00_scope.md R8). It is a parameter: no
operation reads it through the port or writes it. -/
structure Cfg where
  /-- `BAUD`, bit rate in Hz. -/
  baud : Ratio
  /-- `F_MARK`, the tone of bit 1 in Hz. -/
  fMark : Ratio
  /-- `F_SPACE`, the tone of bit 0 in Hz. -/
  fSpace : Ratio
  /-- `FS_M`, modulator output sample rate in Hz. -/
  fsM : Nat
  /-- `FS_D`, demodulator input sample rate in Hz. -/
  fsD : Nat
  /-- `SPB`, modulator samples per bit. -/
  spb : Nat
  /-- `CORRLEN`, the correlation window in samples. -/
  corrlen : Nat
  /-- `TM_I`, mark template, in phase. -/
  tmI : List Int
  /-- `TM_Q`, mark template, quadrature. -/
  tmQ : List Int
  /-- `TS_I`, space template, in phase. -/
  tsI : List Int
  /-- `TS_Q`, space template, quadrature. -/
  tsQ : List Int
  /-- `SUBSAMP`, input samples per correlation step. -/
  subsamp : Nat
  /-- `PHINC`, phase increment per correlation step. -/
  phinc : Nat
  /-- `INT_MAX`, the integrator's bound. -/
  intMax : Nat
  /-- `INT_RESET`, the integrator after a latch. -/
  intReset : IntReset
  /-- `DLL_SHIFT`: the DLL's gain is two to the minus this. -/
  dllShift : Nat
  /-- `DLL_MAX`, the largest nudge. -/
  dllMax : Nat
  /-- `SYNC_BYTE`, the preamble byte. -/
  syncByte : Byte
  /-- `FTW_MARK`, NCO increment per sample for bit 1. -/
  ftwMark : Nat
  /-- `FTW_SPACE`, NCO increment per sample for bit 0. -/
  ftwSpace : Nat
  /-- `AMP`, output amplitude scale. -/
  amp : Nat
  /-- `SINLUT`, the sine table. -/
  sinlut : List Int
  deriving DecidableEq, Repr

/-- One correlator template: `CORRLEN` entries, each in -128..127 (00_scope.md R8). -/
def Cfg.templateOk (c : Cfg) (t : List Int) : Bool :=
  t.length == c.corrlen && t.all (fun v => -128 ≤ v && v ≤ 127)

/-- The constraints on the rates (00_scope.md R8): positive rates and tones, different tones, a whole
number `SPB` of modulator samples per bit, `FS_M > FS_D`, `FS_D > 2 F_MARK`. -/
def Cfg.ratesOk (c : Cfg) : Bool :=
  c.baud.positive && c.fMark.positive && c.fSpace.positive
    && c.fMark.num * c.fSpace.den != c.fSpace.num * c.fMark.den
    && c.fsM * c.baud.den == c.spb * c.baud.num
    && c.fsD < c.fsM
    && Ratio.lt ⟨2 * c.fMark.num, c.fMark.den⟩ ⟨c.fsD, 1⟩

/-- The constraints on the demodulator's constants and templates (00_scope.md R8). -/
def Cfg.demodOk (c : Cfg) : Bool :=
  1 ≤ c.corrlen && c.corrlen ≤ 192
    && c.templateOk c.tmI && c.templateOk c.tmQ && c.templateOk c.tsI && c.templateOk c.tsQ
    && 1 ≤ c.subsamp && c.subsamp ≤ c.corrlen
    && 0 < c.phinc && c.phinc < 65536
    && 1 ≤ c.intMax && c.intMax ≤ 127
    && c.dllShift ≤ 15 && c.dllMax ≤ 32768

/-- The constraints on the modulator's constants and sine table (00_scope.md R8). -/
def Cfg.modOk (c : Cfg) : Bool :=
  1 ≤ c.spb
    && 0 < c.ftwMark && c.ftwMark < 2147483648
    && 0 < c.ftwSpace && c.ftwSpace < 2147483648
    && c.amp ≤ 32767
    && c.sinlut.length == 256 && c.sinlut.all (fun v => -32767 ≤ v && v ≤ 32767)

/-- A configuration that is an instance of the block: every constraint of 00_scope.md R8. One that
breaks a constraint is outside the spec (93_implementation_defined.md section 2; DEDUCED, log entries 4, 10, 11). -/
def Cfg.wf (c : Cfg) : Bool := c.ratesOk && c.demodOk && c.modOk

/-- `TM_I` of profile `P0` (10_state.md R40). -/
def P0.tmI : List Int :=
  [126, 104, 46, -28, -92, -125, -114, -63, 9, 79, 120, 120, 79, 9,
   -63, -114, -125, -92, -28, 46, 104, 126, 104, 46, -28, -92, -125, -114,
   -63, 9, 79, 120, 120, 79, 9, -63, -114, -125, -92, -28, 46, 104]

/-- `TM_Q` of profile `P0` (10_state.md R40). -/
def P0.tmQ : List Int :=
  [0, 71, 117, 123, 86, 19, -55, -109, -126, -99, -37, 37, 99, 126,
   109, 55, -19, -86, -123, -117, -71, 0, 71, 117, 123, 86, 19, -55,
   -109, -126, -99, -37, 37, 99, 126, 109, 55, -19, -86, -123, -117, -71]

/-- `TS_I` of profile `P0` (10_state.md R40). -/
def P0.tsI : List Int :=
  [126, 114, 79, 28, -28, -79, -114, -126, -114, -79, -28, 28, 79, 114,
   126, 114, 79, 28, -28, -79, -114, -126, -114, -79, -28, 28, 79, 114,
   126, 114, 79, 28, -28, -79, -114, -126, -114, -79, -28, 28, 79, 114]

/-- `TS_Q` of profile `P0` (10_state.md R40). -/
def P0.tsQ : List Int :=
  [0, 55, 99, 123, 123, 99, 55, 0, -55, -99, -123, -123, -99, -55,
   0, 55, 99, 123, 123, 99, 55, 0, -55, -99, -123, -123, -99, -55,
   0, 55, 99, 123, 123, 99, 55, 0, -55, -99, -123, -123, -99, -55]

/-- Entries 0..63 of `SINLUT` of profile `P0` (10_state.md R41, rows 0 to 48). -/
def P0.sinRows0 : List Int :=
  [0, 804, 1608, 2410, 3212, 4011, 4808, 5602, 6393, 7179, 7962, 8739, 9512, 10278, 11039, 11793,
   12539, 13279, 14010, 14732, 15446, 16151, 16846, 17530, 18204, 18868, 19519, 20159, 20787, 21403, 22005, 22594,
   23170, 23731, 24279, 24811, 25329, 25832, 26319, 26790, 27245, 27683, 28105, 28510, 28898, 29268, 29621, 29956,
   30273, 30571, 30852, 31113, 31356, 31580, 31785, 31971, 32137, 32285, 32412, 32521, 32609, 32678, 32728, 32757]

/-- Entries 64..127 of `SINLUT` of profile `P0` (10_state.md R41, rows 64 to 112). -/
def P0.sinRows64 : List Int :=
  [32767, 32757, 32728, 32678, 32609, 32521, 32412, 32285, 32137, 31971, 31785, 31580, 31356, 31113, 30852, 30571,
   30273, 29956, 29621, 29268, 28898, 28510, 28105, 27683, 27245, 26790, 26319, 25832, 25329, 24811, 24279, 23731,
   23170, 22594, 22005, 21403, 20787, 20159, 19519, 18868, 18204, 17530, 16846, 16151, 15446, 14732, 14010, 13279,
   12539, 11793, 11039, 10278, 9512, 8739, 7962, 7179, 6393, 5602, 4808, 4011, 3212, 2410, 1608, 804]

/-- The first half of `SINLUT` of profile `P0` (10_state.md R41). -/
def P0.sinHalf : List Int := P0.sinRows0 ++ P0.sinRows64

/-- `SINLUT` of profile `P0`: the second half is the first half negated (10_state.md R41). -/
def P0.sinlut : List Int := P0.sinHalf ++ P0.sinHalf.map (fun v => -v)

/-- The default profile `P0` (00_scope.md R8; the tones and the baud rate as the exact rationals of R10). -/
def Cfg.P0 : Cfg where
  baud := ⟨3125, 6⟩
  fMark := ⟨6250, 3⟩
  fSpace := ⟨3125, 2⟩
  fsM := 43750
  fsD := 21875
  spb := 84
  corrlen := 42
  tmI := Sys2Proof.P0.tmI
  tmQ := Sys2Proof.P0.tmQ
  tsI := Sys2Proof.P0.tsI
  tsQ := Sys2Proof.P0.tsQ
  subsamp := 2
  phinc := 3121
  intMax := 10
  intReset := .clear
  dllShift := 1
  dllMax := 8192
  syncByte := 0xAB#8
  ftwMark := 204522252
  ftwSpace := 153391689
  amp := 16384
  sinlut := Sys2Proof.P0.sinlut

end Sys2Proof
end

