-- ==== Sys2Proof/Machine/State.lean ====
section
/-! DEFINITION. The state of the block as plain data (10_state.md R20 to R38), the response (30_encoding.md
R90), the fault codes (60_exceptions.md R182), and the state right after reset (10_state.md R42). -/

namespace Sys2Proof.Machine

/-- Why the machine stops with a fault: never. The faults of the spec (`FaultCode`) are answered and
recorded and the block goes on, so they are next states (60_exceptions.md R181, R195; DEDUCED, log entry 6). With no
constructor, no step can end this way. -/
inductive Fault where
  deriving DecidableEq, Repr

/-- Why a step answers with no meaning. -/
inductive Refusal where
  /-- Raised by an arm of `exec` whose instruction has no meaning yet. No arm is one. Safe. -/
  | notModelled (mnemonic : String)
  /-- Raised by `step` when the configuration breaks a constraint of 00_scope.md R8: it is not an instance
  of the block and no rule says what it does (93_implementation_defined.md section 2). Safe. -/
  | illFormedConfiguration
  deriving DecidableEq, Repr

/-- The three fault codes (60_exceptions.md R182). -/
inductive FaultCode where
  /-- 1 `E_ILLOP`: the word matches no row of the opcode table. -/
  | illOp
  /-- 2 `E_BADSEL`: the selector names nothing. -/
  | badSel
  /-- 3 `E_ROWRITE`: a write to a read-only register. -/
  | roWrite
  deriving DecidableEq, Repr

/-- The response of one operation (30_encoding.md R90). -/
inductive Response where
  | ok (d : Half)
  | err (code : FaultCode)
  deriving DecidableEq, Repr

/-- What the host presents to the block between two operations: an operation word (30_encoding.md R80) or a
pulse of the hardware reset input (70_reset_and_hazards.md R200; log entries 1 and 8). -/
inductive HostInput where
  | word (w : Word)
  | resetPin
  deriving DecidableEq, Repr

/-- The demodulator context (10_state.md R38). -/
structure Demod where
  /-- `CTRL.HOLD` (R32). -/
  hold : Bool
  /-- `PH`, the phase accumulator (R23). -/
  ph : Half
  /-- `INT`, the integrator (R24). DESIGN CHOICE, log entry 9: an integer with a bound kept by the steps. -/
  int : Int
  /-- `SR`, the sync shift register, newest bit in bit 7 (R25). -/
  sr : Byte
  /-- `BITCNT`, the byte-assembly position (R26). -/
  bitcnt : BitVec 3
  /-- `SYNCED` (R27). -/
  synced : Bool
  /-- `CPREV`, the previous candidate bit (R28). -/
  cprev : Bool
  /-- `TPH`, the transition phase (R29). -/
  tph : Half
  /-- `SUBCNT`, the stride counter (R30). DESIGN CHOICE, log entry 9: a number below `SUBSAMP`. -/
  subcnt : Nat
  /-- `DL`, the delay line, newest sample first (R31). DESIGN CHOICE, log entry 9: a list of `CORRLEN` entries. -/
  dl : List Half
  deriving DecidableEq, Repr

/-- The machine. The first six fields are the registers of 10_state.md R20; the others are the model's own:
the parameter `Cfg`, the operation stream, the responses and the two output streams (00_scope.md R17;
DESIGN CHOICE, log entries 1, 2, 3). -/
structure State where
  /-- The demodulator context, with `CTRL.HOLD` (R38). -/
  demod : Demod
  /-- `EVT`, the event flags (R33). -/
  evt : BitVec 4
  /-- `IEN`, the interrupt enables (R34). -/
  ien : BitVec 4
  /-- `ERRCODE` (R35). -/
  errcode : Byte
  /-- `ERRINFO` (R36). -/
  errinfo : Half
  /-- `MPH`, the NCO phase (R37). -/
  mph : Word
  /-- The configuration of this instance (00_scope.md R8); no step changes it. -/
  cfg : Cfg
  /-- What the host has presented and the block has not accepted yet, next first. -/
  inputs : List HostInput
  /-- The responses given, oldest first (30_encoding.md R90). -/
  responses : List Response
  /-- The `byte_out` stream, oldest first (20_memory.md R75). -/
  byteOut : List Byte
  /-- The `samp_out` stream of signed 16-bit samples, oldest first (20_memory.md R75). -/
  sampOut : List Half
  deriving DecidableEq, Repr

/-- The demodulator context after reset or `DRST`: all zero (10_state.md R42). -/
def Demod.cleared (c : Cfg) : Demod where
  hold := false
  ph := 0
  int := 0
  sr := 0
  bitcnt := 0
  synced := false
  cprev := false
  tph := 0
  subcnt := 0
  dl := List.replicate c.corrlen 0

/-- The block of configuration `c` right after power-on (10_state.md R42, 70_reset_and_hazards.md R200,
R201): every register 0, both streams empty, nothing presented. -/
def State.powerOn (c : Cfg) : State where
  demod := Demod.cleared c
  evt := 0
  ien := 0
  errcode := 0
  errinfo := 0
  mph := 0
  cfg := c
  inputs := []
  responses := []
  byteOut := []
  sampOut := []

/-- The machine right after reset, in the default profile `P0` (00_scope.md R8; log entry 3). -/
def State.reset : State := State.powerOn Cfg.P0

end Sys2Proof.Machine
end

