-- ==== Sys2Proof/Machine/Flags.lean ====
section
/-! DEFINITION. The event flags `EVT` and the interrupt line (10_state.md R33, R34; 60_exceptions.md R184,
R185). The block has no other flags (10_state.md R44). -/

namespace Sys2Proof.Machine

/-- The four event sources (60_exceptions.md R184). -/
inductive Event where
  | sync
  | byte
  | desync
  | err
  deriving DecidableEq, Repr

/-- The bit of `EVT` and `IEN` that belongs to an event (10_state.md R33). -/
def eventBit : Event → Nat
  | .sync => 0
  | .byte => 1
  | .desync => 2
  | .err => 3

/-- `EVT` with one event's bit set; a bit already 1 stays 1 (60_exceptions.md R184). -/
def evtWith (evt : BitVec 4) (e : Event) : BitVec 4 := evt ||| (1#4 <<< eventBit e)

/-- Set the sticky bit of an event (10_state.md R33). -/
def setEvent (e : Event) (s : State) : State := { s with evt := evtWith s.evt e }

/-- The event's bit of `EVT` is 1. -/
def eventSet (e : Event) (s : State) : Bool := s.evt.getLsbD (eventBit e)

/-- Write-one-to-clear on `EVT` (10_state.md R33, 40_system_ops.md R102): `EVT AND NOT v[3:0]`. -/
def evtCleared (evt : BitVec 4) (v : Half) : BitVec 4 := evt &&& ~~~(v.extractLsb' 0 4)

/-- The `irq` output, a pure function of the state (60_exceptions.md R185). -/
def irq (s : State) : Bool := s.evt &&& s.ien != 0

end Sys2Proof.Machine
end

