-- ==== Sys2Proof/Machine/Ops.lean ====
section
/-! DEFINITION. The operations every meaning shares: the response, the two output streams, raising a fault
(the block's whole exception entry: 60_exceptions.md R181, R186), the resets, and accepting host input. -/

namespace Sys2Proof.Machine

/-- The code of a fault (60_exceptions.md R182). -/
def faultNumber : FaultCode → Nat
  | .illOp => 1
  | .badSel => 2
  | .roWrite => 3

/-- The 32-bit response word: `0x0000 ++ d`, or `0x8000 ++ code` (30_encoding.md R90). -/
def responseWord : Response → Word
  | .ok d => 0x0000#16 ++ d
  | .err code => 0x8000#16 ++ BitVec.ofNat 16 (faultNumber code)

/-- Give the operation's single response (30_encoding.md R90). -/
def respond (r : Response) (s : State) : State := { s with responses := s.responses ++ [r] }

/-- Append a byte to `byte_out` (00_scope.md R14). -/
def emitByte (b : Byte) (s : State) : State := { s with byteOut := s.byteOut ++ [b] }

/-- Append samples to `samp_out`, in order (00_scope.md R14, 20_memory.md R75). -/
def emitSamples (l : List Half) (s : State) : State := { s with sampOut := s.sampOut ++ l }

/-- Record the first fault since `EVT.ERR` was last 0 (60_exceptions.md R181, the guarded part). -/
def latchFault (code : FaultCode) (w : Word) (s : State) : State :=
  if eventSet .err s then s
  else { s with errcode := BitVec.ofNat 8 (faultNumber code), errinfo := highHalf w }

/-- `raise Fault(code)` in the operation whose word is `w` (60_exceptions.md R181). There is no trap entry
and no return (R186): the block then accepts the next operation. -/
def raiseFault (code : FaultCode) (w : Word) (s : State) : State :=
  respond (.err code) (setEvent .err (latchFault code w s))

/-- A word that matches no row of the opcode table (30_encoding.md R86). -/
def execIllegal (w : Word) (s : State) : Host.Outcome State Fault Refusal :=
  .next (raiseFault .illOp w s)

/-- Every register to its reset value (10_state.md R42; 40_system_ops.md R103, 70_reset_and_hazards.md
R200, R201): the configuration, the host's inputs, the responses and the streams are not registers. -/
def resetRegisters (s : State) : State :=
  { s with demod := Demod.cleared s.cfg, evt := 0, ien := 0, errcode := 0, errinfo := 0, mph := 0 }

/-- The demodulator context to its reset value, nothing else (40_system_ops.md R104). -/
def resetDemod (s : State) : State := { s with demod := Demod.cleared s.cfg }

/-- The next thing the host has presented, and the state without it (20_memory.md R70: in the order
presented). -/
def acceptInput (s : State) : Option (HostInput × State) :=
  match s.inputs with
  | [] => none
  | x :: rest => some (x, { s with inputs := rest })

/-- A pulse of the hardware reset input: the same effect as `RST` on the registers, and no response, since
it is no operation (70_reset_and_hazards.md R200; DEDUCED, log entry 8). -/
def pulseResetPin (s : State) : Host.Outcome State Fault Refusal := .next (resetRegisters s)

end Sys2Proof.Machine
end

