-- ==== Sys2Proof/Machine/Operands.lean ====
section
/-! DEFINITION. The register port: the selector map (20_memory.md R61) and the reads and writes of every
register (40_system_ops.md R101, R102). -/

namespace Sys2Proof.Machine

/-- The registers a selector can name (20_memory.md R61). -/
inductive Reg where
  | ctrl | evt | ien | errcode | errinfo
  | dph | dint | dsr | dflg | dsub | dtph
  | mphl | mphh
  | dl (i : Nat)
  deriving DecidableEq, Repr

/-- The fixed rows of the selector map (20_memory.md R61). -/
def portMap : List (Byte × Reg) :=
  [(0x00, .ctrl), (0x01, .evt), (0x02, .ien), (0x03, .errcode), (0x04, .errinfo),
   (0x10, .dph), (0x11, .dint), (0x12, .dsr), (0x13, .dflg), (0x14, .dsub), (0x15, .dtph),
   (0x20, .mphl), (0x21, .mphh)]

/-- The delay line's rows of the selector map: `0x40 + i` for `i < CORRLEN` (20_memory.md R61). -/
def delayLineReg (c : Cfg) (sel : Byte) : Option Reg :=
  if 0x40 ≤ sel.toNat ∧ sel.toNat < 0x40 + c.corrlen then some (.dl (sel.toNat - 0x40)) else none

/-- The selector map (20_memory.md R61); `none` where the selector names nothing. -/
def regOf (c : Cfg) (sel : Byte) : Option Reg :=
  match portMap.find? (fun e => e.1 == sel) with
  | some e => some e.2
  | none => delayLineReg c sel

/-- The selector of a register: the map of 20_memory.md R61 read from right to left. -/
def selectorOf : Reg → Byte
  | .ctrl => 0x00
  | .evt => 0x01
  | .ien => 0x02
  | .errcode => 0x03
  | .errinfo => 0x04
  | .dph => 0x10
  | .dint => 0x11
  | .dsr => 0x12
  | .dflg => 0x13
  | .dsub => 0x14
  | .dtph => 0x15
  | .mphl => 0x20
  | .mphh => 0x21
  | .dl i => BitVec.ofNat 8 (0x40 + i)

/-- The read-only registers (10_state.md R35, R36; 40_system_ops.md R102). -/
def readOnly : Reg → Bool
  | .errcode => true
  | .errinfo => true
  | _ => false

/-- A one-bit field as a number. -/
def bitNat (b : Bool) : Nat := if b then 1 else 0

/-- `clamp(v, lo, hi)` (00_scope.md R13). -/
def clamp (v lo hi : Int) : Int := max lo (min hi v)

/-- `u16(v)`: the 16-bit two's-complement pattern of a signed value (00_scope.md R13). -/
def u16 (v : Int) : Half := BitVec.ofInt 16 v

/-- The packed view `DFLG`: `SYNCED + 2 CPREV + 16 BITCNT` (10_state.md R45, 40_system_ops.md R101). -/
def dflgOf (d : Demod) : Half :=
  BitVec.ofNat 16 (bitNat d.synced + 2 * bitNat d.cprev + 16 * d.bitcnt.toNat)

/-- `RegRead(sel)` (40_system_ops.md R101; widths as 20_memory.md R62 says). It changes nothing (R65). -/
def regRead (r : Reg) (s : State) : Half :=
  match r with
  | .ctrl => BitVec.ofNat 16 (bitNat s.demod.hold)
  | .evt => s.evt.zeroExtend 16
  | .ien => s.ien.zeroExtend 16
  | .errcode => s.errcode.zeroExtend 16
  | .errinfo => s.errinfo
  | .dph => s.demod.ph
  | .dint => u16 s.demod.int
  | .dsr => s.demod.sr.zeroExtend 16
  | .dflg => dflgOf s.demod
  | .dsub => BitVec.ofNat 16 s.demod.subcnt
  | .dtph => s.demod.tph
  | .mphl => s.mph.extractLsb' 0 16
  | .mphh => s.mph.extractLsb' 16 16
  | .dl i => s.demod.dl.getD i 0

/-- `RegWrite` on the demodulator context (40_system_ops.md R102): a register outside the context leaves
it alone. -/
def demodWrite (c : Cfg) (r : Reg) (v : Half) (d : Demod) : Demod :=
  match r with
  | .ctrl => { d with hold := v.getLsbD 0 }
  | .dph => { d with ph := v }
  | .dint => { d with int := clamp v.toInt (-(c.intMax : Int)) c.intMax }
  | .dsr => { d with sr := v.extractLsb' 0 8 }
  | .dflg => { d with synced := v.getLsbD 0, cprev := v.getLsbD 1, bitcnt := v.extractLsb' 4 3 }
  | .dsub => { d with subcnt := v.toNat % c.subsamp }
  | .dtph => { d with tph := v }
  | .dl i => { d with dl := d.dl.set i v }
  | _ => d

/-- `RegWrite` on `EVT`: write-one-to-clear (40_system_ops.md R102). -/
def evtWrite (r : Reg) (v : Half) (evt : BitVec 4) : BitVec 4 :=
  match r with
  | .evt => evtCleared evt v
  | _ => evt

/-- `RegWrite` on `IEN` (40_system_ops.md R102). -/
def ienWrite (r : Reg) (v : Half) (ien : BitVec 4) : BitVec 4 :=
  match r with
  | .ien => v.extractLsb' 0 4
  | _ => ien

/-- `RegWrite` on the halves of `MPH` (40_system_ops.md R102). -/
def mphWrite (r : Reg) (v : Half) (mph : Word) : Word :=
  match r with
  | .mphl => mph.extractLsb' 16 16 ++ v
  | .mphh => v ++ mph.extractLsb' 0 16
  | _ => mph

/-- `RegWrite(sel, v)` (40_system_ops.md R102), register group by register group. `WRR` never calls it on a
read-only register; there it changes nothing. No write causes a sync match, an event or a byte. -/
def regWrite (r : Reg) (v : Half) (s : State) : State :=
  { s with
    demod := demodWrite s.cfg r v s.demod
    evt := evtWrite r v s.evt
    ien := ienWrite r v s.ien
    mph := mphWrite r v s.mph }

end Sys2Proof.Machine
end

