-- ==== Sys2Proof/Machine/Demodulator.lean ====
section
/-! DEFINITION. The demodulator: the parts of `DSAMP` (41_demodulator.md R121 to R134) in the order of R135,
`DSAMP` (R120) and `DESYNC` (R141). All arithmetic is on unbounded integers and narrowed where the rule
says so (00_scope.md R13). -/

namespace Sys2Proof.Machine

/-- What one `DSAMP` reports: a sync match and a byte never come together, and there is at most one of them
(41_demodulator.md R133, R136). -/
inductive DemodReport where
  | quiet
  | sync
  | byte (b : Byte)
  deriving DecidableEq, Repr

/-- Delay line shift (41_demodulator.md R121): the new sample enters at index 0, the oldest is dropped. -/
def shiftIn (x : Half) (dl : List Half) : List Half := (x :: dl).dropLast

/-- The sum of products of a window and a template, both oldest first (41_demodulator.md R123). -/
def dot : List Half → List Int → Int
  | x :: xs, t :: ts => x.toInt * t + dot xs ts
  | [], _ => 0
  | _ :: _, [] => 0

/-- The window `s[k] = DL[N-1-k]`: the delay line, oldest sample first (41_demodulator.md R123). -/
def window (dl : List Half) : List Half := dl.reverse

/-- The energy of a window at one tone: the squared in-phase and quadrature sums (41_demodulator.md R123). -/
def toneEnergy (win : List Half) (tI tQ : List Int) : Int :=
  dot win tI * dot win tI + dot win tQ * dot win tQ

/-- The correlation value `f`: energy at the mark tone minus energy at the space tone, an exact integer
(41_demodulator.md R123). -/
def correlation (c : Cfg) (dl : List Half) : Int :=
  toneEnergy (window dl) c.tmI c.tmQ - toneEnergy (window dl) c.tsI c.tsQ

/-- The candidate bit (41_demodulator.md R125). -/
def candidate (f : Int) (cprev : Bool) : Bool :=
  if f > 0 then true else if f < 0 then false else cprev

/-- The integrator's vote (41_demodulator.md R126). -/
def vote (c : Cfg) (f int : Int) : Int :=
  if f > 0 then min (int + 1) c.intMax
  else if f < 0 then max (int - 1) (-(c.intMax : Int))
  else int

/-- The DLL nudge on the phase as a number; the result is in 0..65536 (41_demodulator.md R128). -/
def nudge (c : Cfg) (ph : Nat) : Nat :=
  if ph < 32768 then ph - min (ph >>> c.dllShift) c.dllMax
  else ph + min ((65536 - ph) >>> c.dllShift) c.dllMax

/-- The bit slicer: a tie decides 0 (41_demodulator.md R130). -/
def slice (int : Int) : Bool := decide (int > 0)

/-- The integrator after a latch; halving rounds toward zero (41_demodulator.md R131). -/
def afterLatch (c : Cfg) (int : Int) : Int :=
  match c.intReset with
  | .clear => 0
  | .halve => Int.tdiv int 2

/-- The sync shift register takes the new bit at bit 7 and drops bit 0 (41_demodulator.md R132). -/
def shiftBit (b : Bool) (sr : Byte) : Byte := BitVec.ofBool b ++ sr.extractLsb' 1 7

/-- Byte assembly (41_demodulator.md R134). -/
def assemble (d : Demod) : Demod × DemodReport :=
  if d.synced then
    if d.bitcnt = 7 then ({ d with bitcnt := 0 }, .byte d.sr)
    else ({ d with bitcnt := d.bitcnt + 1 }, .quiet)
  else (d, .quiet)

/-- The sync match takes effect (41_demodulator.md R133, R137). -/
def matchTakesEffect (c : Cfg) (d : Demod) : Bool :=
  d.sr == c.syncByte && (!d.synced || !d.hold)

/-- Sync match, or else byte assembly (41_demodulator.md R133). -/
def matchOrAssemble (c : Cfg) (d : Demod) : Demod × DemodReport :=
  if matchTakesEffect c d then ({ d with synced := true, bitcnt := 0 }, .sync)
  else assemble d

/-- The bit latch at a wrap: slicer, integrator reset, shift, match or assembly (41_demodulator.md R130 to
R134). -/
def latchBit (c : Cfg) (d : Demod) : Demod × DemodReport :=
  matchOrAssemble c
    { d with int := afterLatch c d.int, sr := shiftBit (slice d.int) d.sr }

/-- The phase of the step after the transition test and before the advance (41_demodulator.md R127, R128). -/
def nudgedPhase (c : Cfg) (f : Int) (d : Demod) : Nat :=
  if candidate f d.cprev = d.cprev then d.ph.toNat else nudge c d.ph.toNat

/-- The vote, the transition test with its nudge, `CPREV` and the phase advance, for the correlation value
`f`; a sum of 65536 or more keeps its remainder (41_demodulator.md R125 to R129). -/
def trackPhase (c : Cfg) (f : Int) (d : Demod) : Demod :=
  { d with
    int := vote c f d.int
    tph := if candidate f d.cprev = d.cprev then d.tph else d.ph
    cprev := candidate f d.cprev
    ph := BitVec.ofNat 16 (nudgedPhase c f d + c.phinc) }

/-- The advance reaches 65536: a bit is latched (41_demodulator.md R129). -/
def wraps (c : Cfg) (f : Int) (d : Demod) : Bool := 65536 ≤ nudgedPhase c f d + c.phinc

/-- One correlation step for the correlation value `f`, in the order of 41_demodulator.md R135. -/
def stepWith (c : Cfg) (f : Int) (d : Demod) : Demod × DemodReport :=
  if wraps c f d then latchBit c (trackPhase c f d) else (trackPhase c f d, .quiet)

/-- One correlation step (41_demodulator.md R120, R135). -/
def correlationStep (c : Cfg) (d : Demod) : Demod × DemodReport :=
  stepWith c (correlation c d.dl) d

/-- `DSAMP` on the demodulator context: a function of the configuration, the context and the sample alone
(41_demodulator.md R120, R122, R138). -/
def demodSample (c : Cfg) (x : Half) (d : Demod) : Demod × DemodReport :=
  if d.subcnt + 1 = c.subsamp then
    correlationStep c { d with dl := shiftIn x d.dl, subcnt := 0 }
  else ({ d with dl := shiftIn x d.dl, subcnt := d.subcnt + 1 }, .quiet)

/-- The event flags and the byte stream after a report (41_demodulator.md R133, R134). -/
def applyReport (r : DemodReport) (s : State) : State :=
  match r with
  | .quiet => s
  | .sync => setEvent .sync s
  | .byte b => setEvent .byte (emitByte b s)

/-- `DSAMP x` (41_demodulator.md R120). It never faults (R140). -/
def execDsamp (x : Int) (s : State) : Host.Outcome State Fault Refusal :=
  let r := demodSample s.cfg (u16 x) s.demod
  .next (respond (.ok 0) (applyReport r.2 { s with demod := r.1 }))

/-- `DESYNC` on the context (41_demodulator.md R141). DESIGN CHOICE, log entry 15: with `SYNCED` 0 and `BITCNT`
not 0 the rule's pseudocode clears `BITCNT` and its corner case says nothing changes; the pseudocode is followed. -/
def dropSync (d : Demod) : Demod := { d with synced := false, bitcnt := 0 }

/-- `DESYNC` (41_demodulator.md R141): the event is set only if `SYNCED` was 1. -/
def execDesync (s : State) : Host.Outcome State Fault Refusal :=
  let s1 := if s.demod.synced then setEvent .desync s else s
  .next (respond (.ok 0) { s1 with demod := dropSync s.demod })

end Sys2Proof.Machine
end

