-- ==== Sys2Proof/Machine/Modulator.lean ====
section
/-! DEFINITION. The modulator: the numerically controlled oscillator (42_modulator.md R161), the bit
serialiser (20_memory.md R63, 30_encoding.md R91), and MBIT, MBYTE, MPRE, MSIL (R160 to R164). -/

namespace Sys2Proof.Machine

/-- The phase increment of a bit value (42_modulator.md R161, 00_scope.md R8). -/
def ftw (c : Cfg) (v : Bool) : Word := BitVec.ofNat 32 (if v then c.ftwMark else c.ftwSpace)

/-- The table index of a phase: its top 8 bits (42_modulator.md R161). -/
def ncoIndex (p : Word) : Nat := (p.extractLsb' 24 8).toNat

/-- The sample value at a phase: `(AMP * SINLUT[idx]) >>a 15`, the floor of the product over 32768
(42_modulator.md R161). Division of an integer by a positive number rounds down here. -/
def ncoValue (c : Cfg) (p : Word) : Int := ((c.amp : Int) * c.sinlut.getD (ncoIndex p) 0) / 32768

/-- The sample as a signed 16-bit pattern; it always fits (42_modulator.md R161, R167). -/
def ncoSample (c : Cfg) (p : Word) : Half := BitVec.ofInt 16 (ncoValue c p)

/-- `k` NCO samples for bit value `v` from phase `p`, each taken before the advance, and the phase after
them (42_modulator.md R160, R161). -/
def tone (c : Cfg) (v : Bool) : Nat → Word → List Half × Word
  | 0, p => ([], p)
  | k + 1, p =>
    let r := tone c v k (p + ftw c v)
    (ncoSample c p :: r.1, r.2)

/-- The bits of a byte in the order they are sent: bit 0 first (20_memory.md R63 (a), 30_encoding.md R91). -/
def wireBits (b : Byte) : List Bool := (List.range 8).map (fun i => b.getLsbD i)

/-- Send bits one after another, `SPB` samples each, the phase carried from bit to bit (42_modulator.md
R160, R165). -/
def sendBits (c : Cfg) : List Bool → Word → List Half × Word
  | [], p => ([], p)
  | v :: vs, p =>
    let r := tone c v c.spb p
    let q := sendBits c vs r.2
    (r.1 ++ q.1, q.2)

/-- The bits of `n` preamble bytes (42_modulator.md R163). -/
def preambleBits (c : Cfg) : Nat → List Bool
  | 0 => []
  | n + 1 => wireBits c.syncByte ++ preambleBits c n

/-- Send bits from the current phase: emit the samples and keep the phase they leave. -/
def transmit (bits : List Bool) (s : State) : State :=
  let r := sendBits s.cfg bits s.mph
  emitSamples r.1 { s with mph := r.2 }

/-- `MBIT v` (42_modulator.md R160). -/
def execMbit (v : Bool) (s : State) : Host.Outcome State Fault Refusal :=
  .next (respond (.ok 0) (transmit [v] s))

/-- `MBYTE b` (42_modulator.md R162). -/
def execMbyte (b : Byte) (s : State) : Host.Outcome State Fault Refusal :=
  .next (respond (.ok 0) (transmit (wireBits b) s))

/-- `MPRE n` (42_modulator.md R163). -/
def execMpre (n : Nat) (s : State) : Host.Outcome State Fault Refusal :=
  .next (respond (.ok 0) (transmit (preambleBits s.cfg n) s))

/-- `MSIL n` (42_modulator.md R164): the phase goes to 0 also when `n` is 0. -/
def execMsil (n : Nat) (s : State) : Host.Outcome State Fault Refusal :=
  .next (respond (.ok 0) (emitSamples (List.replicate n 0) { s with mph := 0 }))

end Sys2Proof.Machine
end

