-- ==== Sys2Proof/Machine/SystemOps.lean ====
section
/-! DEFINITION. The system operations NOP, RDR, WRR, RST, DRST, MRST (40_system_ops.md R100 to R105). -/

namespace Sys2Proof.Machine

/-- `NOP` (40_system_ops.md R100). -/
def execNop (s : State) : Host.Outcome State Fault Refusal := .next (respond (.ok 0) s)

/-- `RDR sel` (40_system_ops.md R101). DEDUCED, log entry 7: the faulting word is the operation's encoding. -/
def execRdr (sel : Byte) (s : State) : Host.Outcome State Fault Refusal :=
  match regOf s.cfg sel with
  | none => .next (raiseFault .badSel (encode (.rdr sel)) s)
  | some r => .next (respond (.ok (regRead r s)) s)

/-- `WRR sel, v` (40_system_ops.md R102): the selector is checked before writability (60_exceptions.md R183). -/
def execWrr (sel : Byte) (v : Half) (s : State) : Host.Outcome State Fault Refusal :=
  match regOf s.cfg sel with
  | none => .next (raiseFault .badSel (encode (.wrr sel v)) s)
  | some r =>
    if readOnly r then .next (raiseFault .roWrite (encode (.wrr sel v)) s)
    else .next (respond (.ok 0) (regWrite r v s))

/-- `RST` (40_system_ops.md R103). -/
def execRst (s : State) : Host.Outcome State Fault Refusal :=
  .next (respond (.ok 0) (resetRegisters s))

/-- `DRST` (40_system_ops.md R104). -/
def execDrst (s : State) : Host.Outcome State Fault Refusal :=
  .next (respond (.ok 0) (resetDemod s))

/-- `MRST` (40_system_ops.md R105). -/
def execMrst (s : State) : Host.Outcome State Fault Refusal :=
  .next (respond (.ok 0) { s with mph := 0 })

end Sys2Proof.Machine
end

