-- ==== Sys2Proof/Machine/Dispatch.lean ====
section
/-! DEFINITION. One arm per operation: the call of its meaning. -/

namespace Sys2Proof.Machine

def exec (i : Instr) (s : State) : Host.Outcome State Fault Refusal :=
  match i with
  | .nop => Sys2Proof.Machine.execNop s
  | .rdr sel => Sys2Proof.Machine.execRdr sel s
  | .wrr sel v => Sys2Proof.Machine.execWrr sel v s
  | .rst => Sys2Proof.Machine.execRst s
  | .dsamp x => Sys2Proof.Machine.execDsamp x s
  | .desync => Sys2Proof.Machine.execDesync s
  | .drst => Sys2Proof.Machine.execDrst s
  | .mbit v => Sys2Proof.Machine.execMbit v s
  | .mbyte b => Sys2Proof.Machine.execMbyte b s
  | .mpre n => Sys2Proof.Machine.execMpre n s
  | .msil n => Sys2Proof.Machine.execMsil n s
  | .mrst => Sys2Proof.Machine.execMrst s

end Sys2Proof.Machine
end

