-- ==== Sys2Proof/Machine/Step.lean ====
section
/-! DEFINITION. One step of the block: it takes the next thing the host has presented and does it whole
(00_scope.md R11, R17; 20_memory.md R70). -/

namespace Sys2Proof.Machine

/-- Execute one operation word: decode it and run the operation, or raise `E_ILLOP` (30_encoding.md R85,
R86). -/
def runWord (w : Word) (s : State) : Host.Outcome State Fault Refusal :=
  match decode w with
  | .ok i => exec i s
  | .error _ => execIllegal w s

/-- One step. A configuration that breaks 00_scope.md R8 is refused (DEDUCED, log entry 4). With nothing presented
the block does nothing and keeps all state (60_exceptions.md R194; DEDUCED, log entry 5). -/
def step (s : State) : Host.Outcome State Fault Refusal :=
  if s.cfg.wf then
    match acceptInput s with
    | none => .next s
    | some (.word w, s') => runWord w s'
    | some (.resetPin, s') => pulseResetPin s'
  else .refused .illFormedConfiguration

/-- The state in which the host presents the word with low bits `w` next (DESIGN CHOICE, log entry 1). -/
def State.withFetchWord (s : State) (nbits w : Nat) : State :=
  { s with inputs := .word (tableWord nbits w) :: s.inputs }

end Sys2Proof.Machine
end

