-- ==== Sys2Proof/Machine/HostProgram.lean ====
section
/-! DEFINITION. What the spec says of the host's side of the port: operations one after another, the
assembler's spelling and pseudo-operations (30_encoding.md R88, R89), the save and restore of a session
(70_reset_and_hazards.md R212) and the transmission program (42_modulator.md R171). No step calls this file. -/

namespace Sys2Proof.Machine

/-- Execute operations in order (00_scope.md R18: a run is a finite list of operations). -/
def execAll : List Instr → State → Host.Outcome State Fault Refusal
  | [], s => .next s
  | i :: is, s =>
    match exec i s with
    | .next t => execAll is t
    | .fault r => .fault r
    | .refused r => .refused r

/-- The pseudo-operations (30_encoding.md R89). A character of `MTEXT` is a 7-bit ASCII code. -/
inductive Pseudo where
  | mtext (text : List (BitVec 7))
  | hold
  | unhold
  | clrevt
  | dfeed (samples : List Int)
  | mmark
  | mspace
  deriving DecidableEq, Repr

/-- A character's byte: bit 7 is 0 (30_encoding.md R89, R91). -/
def charByte (ch : BitVec 7) : Byte := ch.zeroExtend 8

/-- The expansion of a pseudo-operation (30_encoding.md R89). -/
def expand : Pseudo → List Instr
  | .mtext text => text.map (fun ch => .mbyte (charByte ch))
  | .hold => [.wrr 0x00#8 1#16]
  | .unhold => [.wrr 0x00#8 0#16]
  | .clrevt => [.wrr 0x01#8 0x000F#16]
  | .dfeed samples => samples.map (fun x => .dsamp x)
  | .mmark => [.mbit true]
  | .mspace => [.mbit false]

/-- The assembler's name of a register (30_encoding.md R88, 20_memory.md R61). -/
def regName : Reg → String
  | .ctrl => "CTRL"
  | .evt => "EVT"
  | .ien => "IEN"
  | .errcode => "ERRCODE"
  | .errinfo => "ERRINFO"
  | .dph => "DPH"
  | .dint => "DINT"
  | .dsr => "DSR"
  | .dflg => "DFLG"
  | .dsub => "DSUB"
  | .dtph => "DTPH"
  | .mphl => "MPHL"
  | .mphh => "MPHH"
  | .dl i => "DL[" ++ toString i ++ "]"

/-- An operation as the assembler writes it, operands in decimal, selectors as numbers (30_encoding.md R88). -/
def asmText : Instr → String
  | .nop => "NOP"
  | .rdr sel => "RDR " ++ toString sel.toNat
  | .wrr sel v => "WRR " ++ toString sel.toNat ++ ", " ++ toString v.toNat
  | .rst => "RST"
  | .dsamp x => "DSAMP " ++ toString x
  | .desync => "DESYNC"
  | .drst => "DRST"
  | .mbit v => "MBIT " ++ toString (bitNat v)
  | .mbyte b => "MBYTE " ++ toString b.toNat
  | .mpre n => "MPRE " ++ toString n
  | .msil n => "MSIL " ++ toString n
  | .mrst => "MRST"

/-- The registers that hold the demodulator context, all of them and nothing else (10_state.md R38,
70_reset_and_hazards.md R212). -/
def contextRegs (c : Cfg) : List Reg :=
  [.ctrl, .dph, .dint, .dsr, .dflg, .dsub, .dtph] ++ (List.range c.corrlen).map .dl

/-- The writes that put the context of `s` back, register by register in the given order
(70_reset_and_hazards.md R212). -/
def restoreOps (s : State) (order : List Reg) : List Instr :=
  order.map (fun r => .wrr (selectorOf r) (regRead r s))

/-- One burst: 16 preamble bytes, the text, a gap (42_modulator.md R171). -/
def burst (text : List (BitVec 7)) (gap : Nat) : List Instr :=
  [.mpre 16] ++ expand (.mtext text) ++ [.msil gap]

/-- `NNNN` (42_modulator.md R171). -/
def endOfMessage : List (BitVec 7) := [0x4E, 0x4E, 0x4E, 0x4E]

/-- The host's program for one transmission; the three durations are the host's (42_modulator.md R171,
92_eei_decisions.md D32; log entry 14). -/
def transmission (text : List (BitVec 7)) (leadSil gap trailSil : Nat) : List Instr :=
  [.msil leadSil]
    ++ burst text gap ++ burst text gap ++ burst text gap
    ++ burst endOfMessage gap ++ burst endOfMessage gap ++ burst endOfMessage gap
    ++ [.msil trailSil]

end Sys2Proof.Machine
end

