-- ==== Sys2Proof/Safety.lean ====
section
/-! DEFINITION. What a good state and a safe operation are, in the terms the statements use: the invariants
of 10_state.md R43, the error flag of 60_exceptions.md R195, and the two commuting groups of operations of
20_memory.md R70. -/

namespace Sys2Proof.Machine

/-- The demodulator context is legal for its configuration (10_state.md R43); the other ranges of R43 hold
by the fields' types. -/
abbrev Demod.Legal (c : Cfg) (d : Demod) : Prop :=
  -(c.intMax : Int) ≤ d.int ∧ d.int ≤ c.intMax ∧ d.subcnt < c.subsamp ∧ d.dl.length = c.corrlen

/-- The invariants of 10_state.md R43, for an instance of the block (00_scope.md R8). -/
abbrev State.Inv (s : State) : Prop :=
  s.cfg.wf = true ∧ s.demod.Legal s.cfg ∧ s.errcode.toNat ≤ 3

/-- The outcome in which an operation responds `OK(d)` and changes nothing else. -/
def answered (d : Half) (s : State) : Host.Outcome State Fault Refusal :=
  .next { s with responses := s.responses ++ [.ok d] }

/-- The outcome of a fault, in the words of 60_exceptions.md R181: `ERRCODE` and `ERRINFO` are written only
if `EVT.ERR` was 0, `EVT.ERR` becomes 1, the response is `ERR(code)`, and nothing else changes. -/
def faulted (code : FaultCode) (number : Nat) (info : Half) (s : State) : Host.Outcome State Fault Refusal :=
  .next { s with
    evt := s.evt ||| 8#4
    errcode := if s.evt.getLsbD 3 then s.errcode else BitVec.ofNat 8 number
    errinfo := if s.evt.getLsbD 3 then s.errinfo else info
    responses := s.responses ++ [.err code] }

/-- The selectors that name a register, as numbers (20_memory.md R61). -/
def selectorMapped (c : Cfg) (sel : Byte) : Prop :=
  sel.toNat ≤ 0x04 ∨ (0x10 ≤ sel.toNat ∧ sel.toNat ≤ 0x15) ∨ sel.toNat = 0x20 ∨ sel.toNat = 0x21 ∨
    (0x40 ≤ sel.toNat ∧ sel.toNat < 0x40 + c.corrlen)

/-- The host presents the word next, then `rest`. -/
def presents (s : State) (w : Word) (rest : List HostInput) : Prop := s.inputs = .word w :: rest

/-- The operation the next step of `s` runs, if any: the host presents a word that decodes to `i`. -/
def nextOp (s : State) (i : Instr) : Prop := ∃ w rest, presents s w rest ∧ decode w = .ok i

/-- The host pulls the hardware reset input next. -/
def nextIsResetPin (s : State) : Prop := ∃ rest, s.inputs = .resetPin :: rest

/-- The host presents a word that is no operation next. -/
def nextIsIllegal (s : State) : Prop := ∃ w rest e, presents s w rest ∧ decode w = .error e

/-- `EVT.ERR` is 1: the only thing gone wrong that the block records (60_exceptions.md R195). -/
def gonewrong (s : State) : Bool := eventSet .err s

/-- The operation raises a fault: a selector that names nothing, or a write to a read-only register
(60_exceptions.md R182). -/
def opFaults (c : Cfg) : Instr → Bool
  | .rdr sel => (regOf c sel).isNone
  | .wrr sel _ => (regOf c sel).all readOnly
  | _ => false

/-- The register belongs to the demodulator context (20_memory.md R70, 10_state.md R38). -/
def contextReg : Reg → Bool
  | .ctrl | .dph | .dint | .dsr | .dflg | .dsub | .dtph | .dl _ => true
  | _ => false

/-- The register is a half of `MPH` (20_memory.md R70). -/
def phaseReg : Reg → Bool
  | .mphl | .mphh => true
  | _ => false

/-- The operation touches only the demodulator context (20_memory.md R70). -/
def demodOnly (c : Cfg) : Instr → Bool
  | .dsamp _ | .desync | .drst => true
  | .rdr sel => (regOf c sel).any contextReg
  | .wrr sel _ => (regOf c sel).any contextReg
  | _ => false

/-- The operation touches only `MPH` (20_memory.md R70). -/
def phaseOnly (c : Cfg) : Instr → Bool
  | .mbit _ | .mbyte _ | .mpre _ | .msil _ | .mrst => true
  | .rdr sel => (regOf c sel).any phaseReg
  | .wrr sel _ => (regOf c sel).any phaseReg
  | _ => false

/-- The operation may write the demodulator context (41_demodulator.md R138). -/
def writesContext (c : Cfg) : Instr → Bool
  | .dsamp _ | .desync | .drst | .rst => true
  | .wrr sel _ => (regOf c sel).any contextReg
  | _ => false

/-- The operation is a `DSAMP`. -/
def isDsamp : Instr → Bool
  | .dsamp _ => true
  | _ => false

end Sys2Proof.Machine
end

