-- ==== Sys2Proof/Certificates/Slice0/Obligations.lean ====
section
/-! DEFINITION. The statements about the model, one definition each. -/

open Sys2Proof Sys2Proof.Machine

/-! ### Encoding -/

/-- Every operation whose operands the encoding admits decodes to itself (30_encoding.md sections 1 to 3). -/
def Obligations.DecodeEncodeAgree : Prop :=
  ∀ i : Instr, i.WellFormed → decode (encode i) = .ok i

/-- A word that decodes is the encoding of what it decodes to, so no bit of it is dropped (30_encoding.md
sections 1 to 3). -/
def Obligations.DecodedWordIsItsEncoding : Prop :=
  ∀ (w : Word) (i : Instr), decode w = .ok i → i.WellFormed ∧ encode i = w

/-- 30_encoding.md R84: a word is an operation iff `(w AND mask) = match` for its row, and no word matches two
rows; a word that matches none decodes to no operation. -/
def Obligations.DecodeFollowsTheOpcodeMap : Prop :=
  (∀ w, ∀ r ∈ opcodeTable, ∀ q ∈ opcodeTable, w &&& r.mask = r.value → w &&& q.mask = q.value → r = q) ∧
  (∀ w, ∀ r ∈ opcodeTable,
    (w &&& r.mask = r.value ↔ ∃ i, decode w = .ok i ∧ i.mnemonic = r.mnemonic)) ∧
  (∀ w, (∀ r ∈ opcodeTable, w &&& r.mask ≠ r.value) ↔ ∃ e, decode w = .error e)

/-- 30_encoding.md R83: how each operand is read from the word. -/
def Obligations.OperandsAreReadFromTheWord : Prop :=
  ∀ (w : Word) (i : Instr), decode w = .ok i →
    match i with
    | .rdr sel => sel.toNat = w.toNat / 65536 % 256
    | .wrr sel v => sel.toNat = w.toNat / 65536 % 256 ∧ v.toNat = w.toNat % 65536
    | .dsamp x => x = (if w.toNat % 65536 < 32768 then ((w.toNat % 65536 : Nat) : Int)
        else ((w.toNat % 65536 : Nat) : Int) - 65536)
    | .mbit v => v.toNat = w.toNat % 2
    | .mbyte b => b.toNat = w.toNat % 256
    | .mpre n => n = w.toNat % 65536
    | .msil n => n = w.toNat / 65536 % 256 * 65536 + w.toNat % 65536
    | .nop => True
    | .rst => True
    | .desync => True
    | .drst => True
    | .mrst => True

/-- Some words written out from the formats (30_encoding.md sections 3 and 4). -/
def Obligations.SampleWordsDecode : Prop :=
  decode 0x02000001#32 = .ok (.wrr 0x00 1) ∧ decode 0x1000FFFF#32 = .ok (.dsamp (-1)) ∧
  decode 0x23011170#32 = .ok (.msil 70000) ∧ decode 0x210000AB#32 = .ok (.mbyte 0xAB) ∧
  decode 0x01110000#32 = .ok (.rdr 0x11) ∧ decode 0x20000002#32 = .error (.unusedBitSet 0x20) ∧
  decode 0x04000000#32 = .error (.unassignedOpcode 0x04)

/-! ### The step -/

/-- A step runs the operation that the presented word decodes to, on the state without that word; a presented
word that decodes to nothing runs as an illegal word (20_memory.md section 4, 30_encoding.md section 3). The
queue of presented words is the model's own (log entry 1). -/
def Obligations.StepRunsTheDecodedOperation : Prop :=
  ∀ (s : State) (w : Word) (rest : List HostInput), s.cfg.wf = true → s.inputs = .word w :: rest →
    step s = runWord w { s with inputs := rest } ∧
    (∀ i, decode w = .ok i → step s = exec i { s with inputs := rest }) ∧
    (∀ e, decode w = .error e → step s = execIllegal w { s with inputs := rest })

/-- 30_encoding.md R86: executing a word that matches no row raises `E_ILLOP`, recorded with the word's high
half, and changes nothing else; so do (a) every word with an unassigned opcode and (b) an assigned opcode with a
bit set where its format requires 0. -/
def Obligations.IllegalWordRaisesIllop : Prop :=
  (∀ (s : State) (w : Word), (∀ r ∈ opcodeTable, w &&& r.mask ≠ r.value) →
    runWord w s = faulted .illOp 1 (w.extractLsb' 16 16) s) ∧
  (∀ (s : State) (w : Word),
    (0x04 ≤ w.toNat / 16777216 ∧ w.toNat / 16777216 ≤ 0x0F) ∨
    (0x13 ≤ w.toNat / 16777216 ∧ w.toNat / 16777216 ≤ 0x1F) ∨ 0x25 ≤ w.toNat / 16777216 →
      runWord w s = faulted .illOp 1 (w.extractLsb' 16 16) s) ∧
  (∀ (s : State) (w : Word), ∀ r ∈ opcodeTable, w.toNat / 16777216 = r.value.toNat / 16777216 →
    w &&& r.mask ≠ r.value → runWord w s = faulted .illOp 1 (w.extractLsb' 16 16) s)

/-- The model's choices at the edges of a step: a block that is given nothing does nothing (log entry 5), and a
configuration that breaks a constraint is refused (log entry 4). -/
def Obligations.IdleAndRefusedSteps : Prop :=
  (∀ s : State, s.cfg.wf = true → s.inputs = [] → step s = .next s) ∧
  (∀ s : State, s.cfg.wf = false → step s = .refused .illFormedConfiguration)

/-- A step of an instance of the block always has a next state: there is no stuck outcome and no refusal
(60_exceptions.md section 4). -/
def Obligations.EveryStepOfAnInstanceCompletes : Prop :=
  ∀ s : State, s.cfg.wf = true → ∃ t, step s = .next t

/-- The configuration never changes and the output streams only grow (00_scope.md section 4, 20_memory.md
section 4). That a step takes the head of a queue of presented things is the model's choice (log entry 1), and so
are the idle step of an empty queue (log entry 5) and the responses as a list that grows (log entry 2). -/
def Obligations.StreamsOnlyGrow : Prop :=
  ∀ s t : State, step s = .next t →
    t.cfg = s.cfg ∧ t.inputs = s.inputs.tail ∧ s.byteOut <+: t.byteOut ∧ s.sampOut <+: t.sampOut ∧
      s.responses <+: t.responses

/-- 30_encoding.md R90: each operation gives exactly one response, `OK(d)` with `d` the register for `RDR` and
0 otherwise, or `ERR(code)`; and the response word. -/
def Obligations.EveryOperationRespondsOnce : Prop :=
  (∀ (i : Instr) (s : State), ∃ t r, exec i s = .next t ∧ t.responses = s.responses ++ [r] ∧
    (if opFaults s.cfg i then ∃ code, r = .err code
     else match i with
       | .rdr sel => ∃ g, regOf s.cfg sel = some g ∧ r = .ok (regRead g s)
       | _ => r = .ok 0)) ∧
  (∀ d, (responseWord (.ok d)).toNat = d.toNat) ∧
  (responseWord (.err .illOp)).toNat = 0x80000001 ∧
  (responseWord (.err .badSel)).toNat = 0x80000002 ∧
  (responseWord (.err .roWrite)).toNat = 0x80000003

/-! ### Reset -/

/-- 40_system_ops.md R103: `RST` sets every register to its reset value, which is 0, and responds `OK(0)`; the
configuration and the two streams stay. -/
def Obligations.RstZeroesEveryRegister : Prop :=
  (∀ s : State, exec .rst s = .next
    { s with
      demod :=
        { hold := false, ph := 0, int := 0, sr := 0, bitcnt := 0, synced := false, cprev := false,
          tph := 0, subcnt := 0, dl := List.replicate s.cfg.corrlen 0 }
      evt := 0, ien := 0, errcode := 0, errinfo := 0, mph := 0
      responses := s.responses ++ [.ok 0] }) ∧
  decode (packWord 0x03 0x00 0x0000) = .ok .rst

/-- The hardware reset input leaves every register at 0 as `RST` does (70_reset_and_hazards.md section 1). That
it is one of the presented inputs and gives no response is the model's choice (log entries 1 and 8). -/
def Obligations.ResetInputZeroesEveryRegister : Prop :=
  ∀ (s : State) (rest : List HostInput), s.cfg.wf = true → s.inputs = .resetPin :: rest →
    ∃ t u, step s = .next t ∧ exec .rst { s with inputs := rest } = .next u ∧
      u = { t with responses := t.responses ++ [.ok 0] } ∧
      t.demod = Demod.cleared s.cfg ∧ t.evt = 0 ∧ t.ien = 0 ∧ t.errcode = 0 ∧ t.errinfo = 0 ∧ t.mph = 0 ∧
      t.cfg = s.cfg ∧ t.byteOut = s.byteOut ∧ t.sampOut = s.sampOut ∧ t.responses = s.responses ∧
      irq t = false

/-- After `RST`, reading any mapped selector responds `OK(0)` (40_system_ops.md section R103, Example). -/
def Obligations.EverySelectorReadsZeroAfterRst : Prop :=
  ∀ (s : State) (sel : Byte), s.cfg.wf = true → selectorMapped s.cfg sel →
    ∃ t, exec .rst s = .next t ∧ exec (.rdr sel) t = answered 0 t

/-- 40_system_ops.md R104: `DRST` resets the demodulator context and nothing else. -/
def Obligations.DrstResetsTheContextOnly : Prop :=
  (∀ s : State,
    exec .drst s = .next
      { s with
        demod :=
          { hold := false, ph := 0, int := 0, sr := 0, bitcnt := 0, synced := false, cprev := false,
            tph := 0, subcnt := 0, dl := List.replicate s.cfg.corrlen 0 }
        responses := s.responses ++ [.ok 0] }) ∧
  decode (packWord 0x12 0x00 0x0000) = .ok .drst

/-- 40_system_ops.md R105: `MRST` sets `MPH` to 0 and nothing else; it is `MSIL 0`. -/
def Obligations.MrstZeroesThePhase : Prop :=
  (∀ s : State,
    exec .mrst s = .next { s with mph := 0, responses := s.responses ++ [.ok 0] } ∧
    exec (.msil 0) s = exec .mrst s) ∧
  decode (packWord 0x24 0x00 0x0000) = .ok .mrst

/-! ### Register port -/

/-- 40_system_ops.md R100: `NOP` responds and does nothing; any other word with opcode 0 is illegal. -/
def Obligations.NopOnlyResponds : Prop :=
  (∀ s : State, exec .nop s = answered 0 s) ∧
  decode 0x00000000#32 = .ok .nop ∧
  (∀ w : Word, w.toNat / 16777216 = 0 → w ≠ 0 → ∃ e, decode w = .error e)

/-- 40_system_ops.md R101: what `RDR` answers for every selector, and that it changes nothing else; a selector
that names nothing faults, and a non-zero immediate makes the word no operation. -/
def Obligations.RdrReadsEverySelector : Prop :=
  (∀ s : State, s.Inv →
    exec (.rdr 0x00) s = answered (BitVec.ofNat 16 s.demod.hold.toNat) s ∧
    exec (.rdr 0x01) s = answered (BitVec.ofNat 16 s.evt.toNat) s ∧
    exec (.rdr 0x02) s = answered (BitVec.ofNat 16 s.ien.toNat) s ∧
    exec (.rdr 0x03) s = answered (BitVec.ofNat 16 s.errcode.toNat) s ∧
    exec (.rdr 0x04) s = answered s.errinfo s ∧
    exec (.rdr 0x10) s = answered s.demod.ph s ∧
    exec (.rdr 0x11) s = answered (BitVec.ofNat 16 (s.demod.int % 65536).toNat) s ∧
    exec (.rdr 0x12) s = answered (BitVec.ofNat 16 s.demod.sr.toNat) s ∧
    exec (.rdr 0x13) s = answered
      (BitVec.ofNat 16 (s.demod.synced.toNat + 2 * s.demod.cprev.toNat + 16 * s.demod.bitcnt.toNat)) s ∧
    exec (.rdr 0x14) s = answered (BitVec.ofNat 16 s.demod.subcnt) s ∧
    exec (.rdr 0x15) s = answered s.demod.tph s ∧
    exec (.rdr 0x20) s = answered (BitVec.ofNat 16 (s.mph.toNat % 65536)) s ∧
    exec (.rdr 0x21) s = answered (BitVec.ofNat 16 (s.mph.toNat / 65536)) s ∧
    (∀ (i : Nat) (x : Half), s.demod.dl[i]? = some x →
      exec (.rdr (BitVec.ofNat 8 (0x40 + i))) s = answered x s) ∧
    (∀ sel, ¬ selectorMapped s.cfg sel → exec (.rdr sel) s = faulted .badSel 2 (0x01#8 ++ sel) s)) ∧
  (∀ w : Word, w.toNat / 16777216 = 1 → w.toNat % 65536 ≠ 0 → ∃ e, decode w = .error e) ∧
  (∀ sel, decode (packWord 0x01 sel 0x0000) = .ok (.rdr sel))

/-- 40_system_ops.md R102: what `WRR` does for every selector, and that it changes nothing else; the two
faults, the selector checked first. -/
def Obligations.WrrWritesEverySelector : Prop :=
  (∀ (s : State) (v : Half), s.Inv →
    let ok : State := { s with responses := s.responses ++ [.ok 0] }
    exec (.wrr 0x00 v) s = .next { ok with demod := { s.demod with hold := v.toNat % 2 == 1 } } ∧
    (∃ e, exec (.wrr 0x01 v) s = .next { ok with evt := e } ∧
      ∀ k < 4, e.getLsbD k = (s.evt.getLsbD k && !v.getLsbD k)) ∧
    exec (.wrr 0x02 v) s = .next { ok with ien := BitVec.ofNat 4 (v.toNat % 16) } ∧
    exec (.wrr 0x03 v) s = faulted .roWrite 3 0x0203#16 s ∧
    exec (.wrr 0x04 v) s = faulted .roWrite 3 0x0204#16 s ∧
    exec (.wrr 0x10 v) s = .next { ok with demod := { s.demod with ph := v } } ∧
    exec (.wrr 0x11 v) s = .next
      { ok with demod := { s.demod with int := max (-(s.cfg.intMax : Int)) (min s.cfg.intMax v.toInt) } } ∧
    exec (.wrr 0x12 v) s = .next { ok with demod := { s.demod with sr := BitVec.ofNat 8 (v.toNat % 256) } } ∧
    exec (.wrr 0x13 v) s = .next
      { ok with
        demod :=
          { s.demod with
            synced := v.toNat % 2 == 1
            cprev := v.toNat / 2 % 2 == 1
            bitcnt := BitVec.ofNat 3 (v.toNat / 16 % 8) } } ∧
    exec (.wrr 0x14 v) s = .next { ok with demod := { s.demod with subcnt := v.toNat % s.cfg.subsamp } } ∧
    exec (.wrr 0x15 v) s = .next { ok with demod := { s.demod with tph := v } } ∧
    exec (.wrr 0x20 v) s = .next
      { ok with mph := BitVec.ofNat 32 (s.mph.toNat / 65536 * 65536 + v.toNat) } ∧
    exec (.wrr 0x21 v) s = .next
      { ok with mph := BitVec.ofNat 32 (v.toNat * 65536 + s.mph.toNat % 65536) } ∧
    (∀ i < s.cfg.corrlen, exec (.wrr (BitVec.ofNat 8 (0x40 + i)) v) s =
      .next { ok with demod := { s.demod with dl := s.demod.dl.set i v } }) ∧
    (∀ sel, ¬ selectorMapped s.cfg sel → exec (.wrr sel v) s = faulted .badSel 2 (0x02#8 ++ sel) s)) ∧
  (∀ sel v, decode (packWord 0x02 sel v) = .ok (.wrr sel v))

/-- A register reads back the value written, made legal for it (20_memory.md section 3, 40_system_ops.md
section R102). -/
def Obligations.WriteThenReadGivesTheLegalValue : Prop :=
  ∀ (s : State) (sel : Byte) (v : Half), s.Inv → selectorMapped s.cfg sel →
    sel ≠ 0x01 → sel ≠ 0x03 → sel ≠ 0x04 →
    ∃ t, exec (.wrr sel v) s = .next t ∧
      exec (.rdr sel) t = answered
        (if sel = 0x00 then v &&& 0x0001
         else if sel = 0x02 then v &&& 0x000F
         else if sel = 0x11 then
           BitVec.ofInt 16 (max (-(s.cfg.intMax : Int)) (min s.cfg.intMax v.toInt))
         else if sel = 0x12 then v &&& 0x00FF
         else if sel = 0x13 then v &&& 0x0073
         else if sel = 0x14 then BitVec.ofNat 16 (v.toNat % s.cfg.subsamp)
         else v) t

/-- A write to one selector leaves what every other selector reads alone, also the other half of `MPH`
(20_memory.md section 3). -/
def Obligations.WriteLeavesOtherSelectorsAlone : Prop :=
  ∀ (s t : State) (a b : Byte) (v : Half) (r : Reg), s.Inv → opFaults s.cfg (.wrr a v) = false →
    exec (.wrr a v) s = .next t → a ≠ b → regOf s.cfg b = some r →
      exec (.rdr b) t = answered (regRead r s) t

/-- Writing the saved values of a session back, in any order, restores its context exactly and causes no
event and no byte (70_reset_and_hazards.md section 3, R212). -/
def Obligations.RestoreGivesTheSavedSession : Prop :=
  ∀ (s u : State) (order : List Reg), s.Inv → u.Inv → u.cfg = s.cfg →
    order.Perm (contextRegs s.cfg) →
      execAll (restoreOps s order) u = .next
        { u with
          demod := s.demod
          responses := u.responses ++ List.replicate order.length (.ok 0) }

/-! ### Faults, events, interrupt -/

/-- 60_exceptions.md R182: the faults are exactly the three rows of the table, each with its record: a word that
is no operation, `RDR` and `WRR` with a selector that names nothing, `WRR` of a read-only register; every other
operation responds `OK` and sets no `EVT.ERR`. -/
def Obligations.OperationsFaultOnlyAsListed : Prop :=
  (∀ (w : Word) (s : State), (∀ r ∈ opcodeTable, w &&& r.mask ≠ r.value) →
    runWord w s = faulted .illOp 1 (w.extractLsb' 16 16) s) ∧
  (∀ (i : Instr) (s : State), s.cfg.wf = true →
    (opFaults s.cfg i = true ↔
      match i with
      | .rdr sel => ¬ selectorMapped s.cfg sel
      | .wrr sel _ => ¬ selectorMapped s.cfg sel ∨ sel = 0x03 ∨ sel = 0x04
      | _ => False) ∧
    (opFaults s.cfg i = false → ∃ t d, exec i s = .next t ∧ t.responses = s.responses ++ [.ok d] ∧
      t.evt.getLsbD 3 = (match i with
        | .rst => false
        | .wrr sel v => s.evt.getLsbD 3 && !(sel == 0x01 && v.getLsbD 3)
        | _ => s.evt.getLsbD 3)) ∧
    (match i with
      | .rdr sel => ¬ selectorMapped s.cfg sel → exec (.rdr sel) s = faulted .badSel 2 (0x01#8 ++ sel) s
      | .wrr sel v =>
        (¬ selectorMapped s.cfg sel → exec (.wrr sel v) s = faulted .badSel 2 (0x02#8 ++ sel) s) ∧
        (sel = 0x03 ∨ sel = 0x04 → exec (.wrr sel v) s = faulted .roWrite 3 (0x02#8 ++ sel) s)
      | _ => True))

/-- The first fault since `EVT.ERR` was last 0 is the one recorded: with `EVT.ERR` 1 every fault of the three
rows of 60_exceptions.md R182 is answered and records nothing; after `WRR EVT, 8`, which clears `ERR` alone and
keeps the record, the same fault records its own code and its word's high half, opcode and selector
(60_exceptions.md section 2). That `exec` takes the high half from the operation is log entry 7. -/
def Obligations.AcknowledgeRearmsTheFaultRecord : Prop :=
  ∀ s : State, s.cfg.wf = true → s.evt.getLsbD 3 = true →
    let acked : State := { s with evt := s.evt &&& 7#4, responses := s.responses ++ [.ok 0] }
    let kept : FaultCode → Host.Outcome State Fault Refusal := fun code =>
      .next { s with responses := s.responses ++ [.err code] }
    let recorded : FaultCode → Byte → Half → Host.Outcome State Fault Refusal := fun code number info =>
      .next { s with errcode := number, errinfo := info, responses := s.responses ++ [.ok 0, .err code] }
    exec (.wrr 0x01 8) s = .next acked ∧
    (∀ w : Word, (∀ r ∈ opcodeTable, w &&& r.mask ≠ r.value) →
      runWord w s = kept .illOp ∧ runWord w acked = recorded .illOp 1 (w.extractLsb' 16 16)) ∧
    (∀ sel, ¬ selectorMapped s.cfg sel →
      exec (.rdr sel) s = kept .badSel ∧ exec (.rdr sel) acked = recorded .badSel 2 (0x01#8 ++ sel)) ∧
    (∀ sel v, ¬ selectorMapped s.cfg sel →
      exec (.wrr sel v) s = kept .badSel ∧ exec (.wrr sel v) acked = recorded .badSel 2 (0x02#8 ++ sel)) ∧
    (∀ sel v, sel = 0x03 ∨ sel = 0x04 →
      exec (.wrr sel v) s = kept .roWrite ∧ exec (.wrr sel v) acked = recorded .roWrite 3 (0x02#8 ++ sel))

/-- An event bit is cleared only by writing 1 to it, by `RST` or by reset, and set only by its own source
(60_exceptions.md section 3). -/
def Obligations.EventBitsChangeOnlyByTheirSources : Prop :=
  ∀ (s t : State) (k : Nat), step s = .next t → k < 4 →
    (s.evt.getLsbD k = true → t.evt.getLsbD k = false →
      nextIsResetPin s ∨ nextOp s .rst ∨ ∃ v : Half, nextOp s (.wrr 0x01 v) ∧ v.getLsbD k = true) ∧
    (s.evt.getLsbD k = false → t.evt.getLsbD k = true →
      ((k = 0 ∨ k = 1) ∧ ∃ x, nextOp s (.dsamp x)) ∨
      (k = 2 ∧ nextOp s .desync ∧ s.demod.synced = true) ∨
      (k = 3 ∧ (nextIsIllegal s ∨ ∃ i, nextOp s i ∧ opFaults s.cfg i = true)))

/-- 60_exceptions.md R185: `irq` is 1 iff an enabled event is set, and what an operation does never depends on
`IEN` (but for reading `IEN` itself). -/
def Obligations.InterruptLineIsALevel : Prop :=
  (∀ s : State, irq s = true ↔ ∃ k < 4, s.evt.getLsbD k = true ∧ s.ien.getLsbD k = true) ∧
  (∀ (i : Instr) (s : State) (e : BitVec 4), i ≠ .rdr 0x02 →
    ∃ t u, exec i s = .next t ∧ exec i { s with ien := e } = .next u ∧
      u = { t with ien := u.ien } ∧ ((t.ien = s.ien ∧ u.ien = e) ∨ t.ien = u.ien))

/-! ### Demodulator -/

/-- 41_demodulator.md R121: the delay line shift, for every `DSAMP`. -/
def Obligations.DsampShiftsTheDelayLine : Prop :=
  ∀ (x : Int) (s : State), ∃ t, exec (.dsamp x) s = .next t ∧
    t.demod.dl.length = s.demod.dl.length ∧
    (0 < s.demod.dl.length → t.demod.dl[0]? = some (BitVec.ofInt 16 x)) ∧
    (∀ i, i + 1 < s.demod.dl.length → t.demod.dl[i + 1]? = s.demod.dl[i]?)

/-- 41_demodulator.md R140: `DSAMP` is defined for every sample in every state; it never clears `SYNCED`, and
it touches nothing outside the context but `EVT.SYNC`, `EVT.BYTE` and `byte_out`. -/
def Obligations.DsampNeverFaults : Prop :=
  ∀ (x : Int) (s : State), ∃ t, exec (.dsamp x) s = .next t ∧
    t.responses = s.responses ++ [.ok 0] ∧ (s.demod.synced = true → t.demod.synced = true) ∧
    t.demod.hold = s.demod.hold ∧ t.evt.getLsbD 2 = s.evt.getLsbD 2 ∧ t.evt.getLsbD 3 = s.evt.getLsbD 3 ∧
    t.ien = s.ien ∧ t.errcode = s.errcode ∧ t.errinfo = s.errinfo ∧ t.mph = s.mph ∧ t.cfg = s.cfg ∧
    t.inputs = s.inputs ∧ t.sampOut = s.sampOut

/-- A `DSAMP` that does not end a stride only shifts the delay line and counts (41_demodulator.md section 1,
R122). -/
def Obligations.DsampWithinTheStride : Prop :=
  ∀ (x : Int) (s : State), s.demod.subcnt + 1 ≠ s.cfg.subsamp →
    exec (.dsamp x) s = .next
      { s with
        demod :=
          { s.demod with
            dl := (BitVec.ofInt 16 x :: s.demod.dl).dropLast
            subcnt := s.demod.subcnt + 1 }
        responses := s.responses ++ [.ok 0] }

/-- 41_demodulator.md R123: the correlation value, as sums over the window, oldest sample first. -/
def Obligations.CorrelationIsTheEnergyDifference : Prop :=
  ∀ (c : Cfg) (dl : List Half), c.wf = true → dl.length = c.corrlen →
    let s : Nat → Int := fun k => (dl.getD (c.corrlen - 1 - k) 0).toInt
    let sum : List Int → Int := fun tm => ((List.range c.corrlen).map (fun k => s k * tm.getD k 0)).sum
    correlation c dl =
      (sum c.tmI * sum c.tmI + sum c.tmQ * sum c.tmQ) - (sum c.tsI * sum c.tsI + sum c.tsQ * sum c.tsQ)

/-- The correlator's sums and the correlation value fit signed 64-bit arithmetic (41_demodulator.md section 1,
R124). -/
def Obligations.CorrelatorFitsSixtyFourBits : Prop :=
  ∀ (c : Cfg) (dl : List Half), c.wf = true → dl.length = c.corrlen →
    (∀ tm ∈ [c.tmI, c.tmQ, c.tsI, c.tsQ], -(2 ^ 30) < dot (window dl) tm ∧ dot (window dl) tm < 2 ^ 30) ∧
    -(2 ^ 61) < correlation c dl ∧ correlation c dl < 2 ^ 61

/-- 41_demodulator.md R125, R127, R128: candidate bit, transition and nudge, then the phase advance. The nudge
alone stays in 0..65536; it reaches 65536 only with a shift of 0, and then does where the bound admits it. -/
def Obligations.DsampTracksTheBitPhase : Prop :=
  ∀ (x : Int) (s : State), s.Inv → s.demod.subcnt + 1 = s.cfg.subsamp →
    let d := s.demod
    let f := correlation s.cfg ((BitVec.ofInt 16 x :: d.dl).dropLast)
    let c : Bool := if f > 0 then true else if f < 0 then false else d.cprev
    let p := d.ph.toNat
    let nudged :=
      if c = d.cprev then p
      else if p < 32768 then p - min (p / 2 ^ s.cfg.dllShift) s.cfg.dllMax
      else p + min ((65536 - p) / 2 ^ s.cfg.dllShift) s.cfg.dllMax
    nudged ≤ 65536 ∧ nudged + s.cfg.phinc < 131072 ∧
    (1 ≤ s.cfg.dllShift → nudged ≤ 65535) ∧
    (c ≠ d.cprev → 32768 ≤ p → s.cfg.dllShift = 0 → 65536 - p ≤ s.cfg.dllMax → nudged = 65536) ∧
    ∃ t, exec (.dsamp x) s = .next t ∧ t.demod.cprev = c ∧
      t.demod.tph = (if c = d.cprev then d.tph else d.ph) ∧
      t.demod.ph.toNat =
        (if 65536 ≤ nudged + s.cfg.phinc then nudged + s.cfg.phinc - 65536 else nudged + s.cfg.phinc) ∧
      t.demod.subcnt = 0

/-- 41_demodulator.md R126, and that a step without a wrap touches no register of the slicer, synchroniser and
byte assembly, no event and no stream. -/
def Obligations.DsampVotesWithoutAWrap : Prop :=
  ∀ (x : Int) (s : State), s.Inv → s.demod.subcnt + 1 = s.cfg.subsamp →
    let d := s.demod
    let dl := (BitVec.ofInt 16 x :: d.dl).dropLast
    let f := correlation s.cfg dl
    let c : Bool := if f > 0 then true else if f < 0 then false else d.cprev
    let p := d.ph.toNat
    let nudged :=
      if c = d.cprev then p
      else if p < 32768 then p - min (p / 2 ^ s.cfg.dllShift) s.cfg.dllMax
      else p + min ((65536 - p) / 2 ^ s.cfg.dllShift) s.cfg.dllMax
    nudged + s.cfg.phinc < 65536 →
      exec (.dsamp x) s = .next
        { s with
          demod :=
            { d with
              dl := dl
              subcnt := 0
              cprev := c
              tph := if c = d.cprev then d.tph else d.ph
              ph := BitVec.ofNat 16 (nudged + s.cfg.phinc)
              int :=
                if f > 0 then min (d.int + 1) s.cfg.intMax
                else if f < 0 then max (d.int - 1) (-(s.cfg.intMax : Int))
                else d.int }
          responses := s.responses ++ [.ok 0] }

/-- 41_demodulator.md R130 to R134: the bit latch at a wrap. The decided bit comes from the integrator after
this step's vote; the new bit enters `SR` at bit 7; a match that takes effect sets the boundary and emits
nothing; otherwise a synchronised block counts the bit or emits the byte. -/
def Obligations.DsampLatchesABitAtAWrap : Prop :=
  ∀ (x : Int) (s : State), s.Inv → s.demod.subcnt + 1 = s.cfg.subsamp →
    let d := s.demod
    let dl := (BitVec.ofInt 16 x :: d.dl).dropLast
    let f := correlation s.cfg dl
    let c : Bool := if f > 0 then true else if f < 0 then false else d.cprev
    let p := d.ph.toNat
    let nudged :=
      if c = d.cprev then p
      else if p < 32768 then p - min (p / 2 ^ s.cfg.dllShift) s.cfg.dllMax
      else p + min ((65536 - p) / 2 ^ s.cfg.dllShift) s.cfg.dllMax
    let voted : Int :=
      if f > 0 then min (d.int + 1) s.cfg.intMax
      else if f < 0 then max (d.int - 1) (-(s.cfg.intMax : Int))
      else d.int
    let sr : Byte := BitVec.ofNat 8 ((if voted > 0 then 128 else 0) + d.sr.toNat / 2)
    let tracked : Demod :=
      { d with
        dl := dl
        subcnt := 0
        cprev := c
        tph := if c = d.cprev then d.tph else d.ph
        ph := BitVec.ofNat 16 (nudged + s.cfg.phinc - 65536)
        int :=
          match s.cfg.intReset with
          | .clear => 0
          | .halve => Int.sign voted * (voted.natAbs / 2 : Nat)
        sr := sr }
    let ok : State := { s with responses := s.responses ++ [.ok 0] }
    65536 ≤ nudged + s.cfg.phinc →
      exec (.dsamp x) s = .next
        (if sr = s.cfg.syncByte ∧ (d.synced = false ∨ d.hold = false) then
          { ok with demod := { tracked with synced := true, bitcnt := 0 }, evt := s.evt ||| 1#4 }
        else if d.synced = true then
          if d.bitcnt = 7 then
            { ok with
              demod := { tracked with bitcnt := 0 }
              byteOut := s.byteOut ++ [sr]
              evt := s.evt ||| 2#4 }
          else { ok with demod := { tracked with bitcnt := BitVec.ofNat 3 (d.bitcnt.toNat + 1) } }
        else { ok with demod := tracked })

/-- Eight latched bits of a byte, least significant first, leave the byte in `SR` (10_state.md section 2, R25;
20_memory.md section 2). -/
def Obligations.EightBitsAssembleTheByte : Prop :=
  ∀ (sr b : Byte), (wireBits b).foldl (fun r v => shiftBit v r) sr = b

/-- One `DSAMP` emits at most one byte and latches at most one bit, and a byte and a sync match never come
from the same one (41_demodulator.md section 1, R136; 95_test_vectors.md P5). -/
def Obligations.AtMostOneByteAndOneBitPerSample : Prop :=
  ∀ (x : Int) (s t : State), exec (.dsamp x) s = .next t →
    (t.byteOut = s.byteOut ∨
      (t.byteOut = s.byteOut ++ [t.demod.sr] ∧ s.demod.synced = true ∧ s.demod.bitcnt = 7 ∧
        t.demod.bitcnt = 0 ∧ t.evt.getLsbD 0 = s.evt.getLsbD 0)) ∧
    (t.demod.sr = s.demod.sr ∨ ∃ b, t.demod.sr = shiftBit b s.demod.sr)

/-- In a window of zeros a zero sample that ends a stride casts no vote and is no transition, and the phase
advances by `PHINC`. Without a wrap nothing else changes but the stride counter. At a wrap the integrator as it
stood decides the bit that enters `SR`, and is then cleared or halved; only `SYNCED`, `BITCNT`, `EVT` and
`byte_out` may change besides (41_demodulator.md section 2, R139). -/
def Obligations.SilenceAdvancesThePhase : Prop :=
  ∀ s : State, s.Inv → (∀ v ∈ s.demod.dl, v = 0) → s.demod.subcnt + 1 = s.cfg.subsamp →
    let d := s.demod
    let sum := d.ph.toNat + s.cfg.phinc
    (sum < 65536 →
      exec (.dsamp 0) s = .next
        { s with
          demod := { d with subcnt := 0, ph := BitVec.ofNat 16 sum }
          responses := s.responses ++ [.ok 0] }) ∧
    (65536 ≤ sum →
      ∃ (synced : Bool) (bitcnt : BitVec 3) (evt : BitVec 4) (bytes : List Byte),
        exec (.dsamp 0) s = .next
          { s with
            demod :=
              { d with
                subcnt := 0
                ph := BitVec.ofNat 16 (sum - 65536)
                int :=
                  match s.cfg.intReset with
                  | .clear => 0
                  | .halve => Int.sign d.int * (d.int.natAbs / 2 : Nat)
                sr := BitVec.ofNat 8 ((if d.int > 0 then 128 else 0) + d.sr.toNat / 2)
                synced := synced
                bitcnt := bitcnt }
            evt := evt
            byteOut := s.byteOut ++ bytes
            responses := s.responses ++ [.ok 0] })

/-- Any number of silent samples from reset (profile `P0`, log entry 3) emits no byte, sets no event and never
synchronises (41_demodulator.md section 2; 95_test_vectors.md P6). -/
def Obligations.SilenceFromResetEmitsNothing : Prop :=
  ∀ n : Nat, ∃ t, execAll (List.replicate n (.dsamp 0)) State.reset = .next t ∧
    t.byteOut = [] ∧ t.evt = 0 ∧ t.errcode = 0 ∧ t.demod.synced = false ∧ t.demod.sr = 0 ∧
    t.demod.int = 0 ∧ t.demod.tph = 0 ∧ t.demod.bitcnt = 0 ∧
    t.demod.ph.toNat = n / 2 * 3121 % 65536 ∧ t.demod.subcnt = n % 2 ∧
    t.responses = List.replicate n (.ok 0)

/-- 41_demodulator.md R138: the effect of `DSAMP` is a function of the context, the configuration and the sample
alone; so what a sequence of samples does to the context and which bytes it emits does not depend on the
operations between them that do not write the context. -/
def Obligations.StreamingEquivalence : Prop :=
  (∀ (x : Int) (s u : State), s.cfg = u.cfg → s.demod = u.demod →
    ∃ (d : Demod) (m : BitVec 4) (bytes : List Byte),
      exec (.dsamp x) s = .next
        { s with
          demod := d
          evt := s.evt ||| m
          byteOut := s.byteOut ++ bytes
          responses := s.responses ++ [.ok 0] } ∧
      exec (.dsamp x) u = .next
        { u with
          demod := d
          evt := u.evt ||| m
          byteOut := u.byteOut ++ bytes
          responses := u.responses ++ [.ok 0] }) ∧
  (∀ (l : List Instr) (s u : State), s.cfg = u.cfg → s.demod = u.demod →
    (∀ i ∈ l, isDsamp i = true ∨ writesContext s.cfg i = false) →
      ∃ t v bytes, execAll l s = .next t ∧ execAll (l.filter isDsamp) u = .next v ∧
        t.demod = v.demod ∧ t.byteOut = s.byteOut ++ bytes ∧ v.byteOut = u.byteOut ++ bytes)

/-- `DESYNC` clears `SYNCED` and `BITCNT`, sets `EVT.DESYNC` iff `SYNCED` was 1, and changes nothing else
(41_demodulator.md section 3, 10_state.md section 7, 70_reset_and_hazards.md section 1). Where `SYNCED` is 0 and
`BITCNT` is not, the pseudocode and the corner case of the rule differ, and that the pseudocode holds is the
model's choice (log entry 15). -/
def Obligations.DesyncDropsByteSync : Prop :=
  (∀ s : State, exec .desync s = .next
    { s with
      demod := { s.demod with synced := false, bitcnt := 0 }
      evt := if s.demod.synced = true then s.evt ||| 4#4 else s.evt
      responses := s.responses ++ [.ok 0] }) ∧
  decode (packWord 0x11 0x00 0x0000) = .ok .desync

/-- The block never loses sync by itself: `SYNCED` is cleared only by `DESYNC`, `DRST`, `RST`, reset or a write
to `DFLG` (10_state.md section 2, R27). -/
def Obligations.SyncIsLostOnlyOnRequest : Prop :=
  ∀ s t : State, step s = .next t → s.demod.synced = true → t.demod.synced = false →
    nextIsResetPin s ∨ nextOp s .rst ∨ nextOp s .drst ∨ nextOp s .desync ∨
      ∃ v : Half, nextOp s (.wrr 0x13 v) ∧ v.getLsbD 0 = false

/-- `BITCNT` is 0 whenever `SYNCED` is 0, unless the host wrote it otherwise through `DFLG` (10_state.md
section 2, R26). -/
def Obligations.BitCountIsZeroWhileSearching : Prop :=
  ∀ s t : State, step s = .next t → (s.demod.synced = false → s.demod.bitcnt = 0) →
    (∀ v, ¬ nextOp s (.wrr 0x13 v)) → (t.demod.synced = false → t.demod.bitcnt = 0)

/-! ### Modulator -/

/-- 42_modulator.md R160: `MBIT v` emits `SPB` samples, sample `j` taken from the phase `MPH + j FTW` before
its advance, and leaves `MPH + SPB FTW`, all modulo `2^32`. -/
def Obligations.MbitEmitsThePhaseRamp : Prop :=
  (∀ (v : Bool) (s : State),
    let step := if v then s.cfg.ftwMark else s.cfg.ftwSpace
    let phase : Nat → Nat := fun j => (s.mph.toNat + j * step) % 4294967296
    exec (.mbit v) s = .next
      { s with
        mph := BitVec.ofNat 32 (phase s.cfg.spb)
        sampOut := s.sampOut ++ (List.range s.cfg.spb).map (fun j =>
          BitVec.ofInt 16 (Int.fdiv ((s.cfg.amp : Int) * s.cfg.sinlut.getD (phase j / 16777216) 0) 32768))
        responses := s.responses ++ [.ok 0] }) ∧
  (∀ v : Bool, decode (packWord 0x20 0x00 (BitVec.ofNat 16 v.toNat)) = .ok (.mbit v)) ∧
  (∃ e, decode 0x20000002#32 = .error e)

/-- Every sample fits signed 16 bits and lies between the floors that the amplitude allows (42_modulator.md
section 1, R161). -/
def Obligations.SamplesFitSixteenBits : Prop :=
  ∀ (c : Cfg) (p : Word), c.wf = true →
    (ncoSample c p).toInt = ncoValue c p ∧
    Int.fdiv ((c.amp : Int) * -32767) 32768 ≤ ncoValue c p ∧
    ncoValue c p ≤ Int.fdiv ((c.amp : Int) * 32767) 32768

/-- 42_modulator.md R162: `MBYTE b` is `MBIT b[0]`, …, `MBIT b[7]`: the same `8 SPB` samples and the same final
phase, with one response. -/
def Obligations.MbyteIsEightMbits : Prop :=
  (∀ (b : Byte) (s : State), ∃ u,
    execAll [.mbit (b.getLsbD 0), .mbit (b.getLsbD 1), .mbit (b.getLsbD 2), .mbit (b.getLsbD 3),
      .mbit (b.getLsbD 4), .mbit (b.getLsbD 5), .mbit (b.getLsbD 6), .mbit (b.getLsbD 7)] s = .next u ∧
    u = { s with mph := u.mph, sampOut := u.sampOut, responses := u.responses } ∧
    u.sampOut.length = s.sampOut.length + 8 * s.cfg.spb ∧
    exec (.mbyte b) s = .next { u with responses := s.responses ++ [.ok 0] }) ∧
  (∀ b : Byte, decode (packWord 0x21 0x00 (0x00#8 ++ b)) = .ok (.mbyte b))

/-- 42_modulator.md R163: `MPRE n` is `n` times `MBYTE` of the sync byte, with one response. -/
def Obligations.MpreIsRepeatedMbyte : Prop :=
  (∀ (n : Nat) (s : State), ∃ u,
    execAll (List.replicate n (.mbyte s.cfg.syncByte)) s = .next u ∧
    u = { s with mph := u.mph, sampOut := u.sampOut, responses := u.responses } ∧
    exec (.mpre n) s = .next { u with responses := s.responses ++ [.ok 0] }) ∧
  (∀ n < 65536, decode (packWord 0x22 0x00 (BitVec.ofNat 16 n)) = .ok (.mpre n))

/-- 42_modulator.md R164: `MSIL n` resets the phase and emits `n` zeros. -/
def Obligations.MsilEmitsZerosFromPhaseZero : Prop :=
  (∀ (n : Nat) (s : State), exec (.msil n) s = .next
    { s with
      mph := 0
      sampOut := s.sampOut ++ List.replicate n 0
      responses := s.responses ++ [.ok 0] }) ∧
  (∀ n < 16777216, decode (packWord 0x23 (BitVec.ofNat 8 (n / 65536)) (BitVec.ofNat 16 n)) = .ok (.msil n))

/-- 42_modulator.md R166: how many samples every operation emits, and that they are a function of the
configuration, `MPH` and the operation alone; so the same operations from the same phase emit the same samples. -/
def Obligations.SampleCountAndDeterminism : Prop :=
  (∀ (i : Instr) (s u : State), s.cfg = u.cfg → s.mph = u.mph →
    ∃ t v l, exec i s = .next t ∧ exec i u = .next v ∧ t.mph = v.mph ∧ t.sampOut = s.sampOut ++ l ∧
      v.sampOut = u.sampOut ++ l ∧
      l.length = (match i with
        | .mbit _ => s.cfg.spb
        | .mbyte _ => 8 * s.cfg.spb
        | .mpre n => 8 * s.cfg.spb * n
        | .msil n => n
        | _ => 0)) ∧
  (∀ (is : List Instr) (s u : State), s.cfg = u.cfg → s.mph = u.mph →
    ∃ t v l, execAll is s = .next t ∧ execAll is u = .next v ∧ t.mph = v.mph ∧
      t.sampOut = s.sampOut ++ l ∧ v.sampOut = u.sampOut ++ l)

/-- Only modulator operations, `RST`, reset and a write to `MPHL` or `MPHH` change `MPH`: no other operation
between two of them changes an emitted sample (42_modulator.md section 3, R165). -/
def Obligations.PhaseChangesOnlyByItsOwners : Prop :=
  ∀ s t : State, step s = .next t → t.mph ≠ s.mph →
    nextIsResetPin s ∨ nextOp s .rst ∨ nextOp s .mrst ∨ (∃ v, nextOp s (.mbit v)) ∨
      (∃ b, nextOp s (.mbyte b)) ∨ (∃ n, nextOp s (.mpre n)) ∨ (∃ n, nextOp s (.msil n)) ∨
      ∃ v, nextOp s (.wrr 0x20 v) ∨ nextOp s (.wrr 0x21 v)

/-! ### The whole block -/

/-- The invariants of 10_state.md R43 are kept by every step, from every state that meets them. -/
def Obligations.StepKeepsTheInvariant : Prop :=
  ∀ s t : State, s.Inv → step s = .next t → t.Inv

/-- The reset state meets the invariants of 10_state.md R43. -/
def Obligations.ResetMeetsTheInvariant : Prop := State.reset.Inv

/-- An operation that touches only the demodulator context commutes with one that touches only `MPH`: the same
state, the same response to each, the same two output streams (20_memory.md section 4, R70). -/
def Obligations.DemodAndModOperationsCommute : Prop :=
  ∀ (i j : Instr) (s : State), demodOnly s.cfg i = true → phaseOnly s.cfg j = true →
    ∃ (t : State) (di dj : Half),
      execAll [i, j] s = .next { t with responses := s.responses ++ [.ok di, .ok dj] } ∧
      execAll [j, i] s = .next { t with responses := s.responses ++ [.ok dj, .ok di] }

/-- The false sync patterns across two 7-bit characters are exactly the three rows of 70_reset_and_hazards.md
R210. `k` is the bit of `a` at which the window starts. -/
def Obligations.FalseSyncAcrossTwoCharacters : Prop :=
  ∀ (a b : Byte) (k : Nat), a.toNat < 128 → b.toNat < 128 → k < 8 →
    (((wireBits a ++ wireBits b).drop k).take 8 = wireBits 0xAB ↔
      (k = 1 ∧ (a = 0x56 ∨ a = 0x57) ∧ b.getLsbD 0 = true) ∨
      (k = 3 ∧ 0x58 ≤ a.toNat ∧ a.toNat ≤ 0x5F ∧ b.toNat % 8 = 5) ∨
      (k = 5 ∧ 0x60 ≤ a.toNat ∧ (b = 0x15 ∨ b = 0x35 ∨ b = 0x55 ∨ b = 0x75)))

/-! ### Profile `P0` -/

/-- Profile `P0` is an instance of the block, and its templates pass the checks of 10_state.md R40: the sums of
squares, the sums of entries, the dot products. -/
def Obligations.ProfileTablesPassTheirChecks : Prop :=
  Cfg.P0.wf = true ∧
  (P0.tmI.map (fun v => v * v)).sum = 333720 ∧ (P0.tmQ.map (fun v => v * v)).sum = 334272 ∧
  (P0.tsI.map (fun v => v * v)).sum = 335508 ∧ (P0.tsQ.map (fun v => v * v)).sum = 335460 ∧
  P0.tmI.sum = -4 ∧ P0.tmQ.sum = 0 ∧ P0.tsI.sum = 0 ∧ P0.tsQ.sum = 0 ∧
  [P0.tmI, P0.tmQ, P0.tsI, P0.tsQ].Pairwise (fun a b => (List.zipWith (· * ·) a b).sum = 0)

/-- The symmetries of the sine table of `P0` (10_state.md section 6, R41). -/
def Obligations.SineTableSymmetries : Prop :=
  P0.sinlut.length = 256 ∧
  (∀ i < 128, P0.sinlut.getD (128 + i) 0 = -P0.sinlut.getD i 0) ∧
  (∀ i ≤ 128, P0.sinlut.getD (128 - i) 0 = P0.sinlut.getD i 0)
end

