-- ==== Sys2Proof/Laws/Config.lean ====
section
/-! SUPPORT. What a legal configuration says of its fields (00_scope.md R8), once. -/

namespace Sys2Proof

/-- The correlator's templates of a legal configuration (00_scope.md R8). -/
theorem Cfg.wf_templates {c : Cfg} (h : c.wf = true) :
    ∀ t ∈ [c.tmI, c.tmQ, c.tsI, c.tsQ], t.length = c.corrlen ∧ ∀ v ∈ t, -128 ≤ v ∧ v ≤ 127 := by
  simp only [Cfg.wf, Cfg.demodOk, Cfg.templateOk, Bool.and_eq_true, beq_iff_eq, List.all_eq_true,
    decide_eq_true_eq] at h
  obtain ⟨⟨_, h⟩, _⟩ := h
  obtain ⟨⟨⟨⟨⟨⟨⟨⟨⟨⟨⟨⟨_, h1⟩, h2⟩, h3⟩, h4⟩, _⟩, _⟩, _⟩, _⟩, _⟩, _⟩, _⟩, _⟩ := h
  intro t ht
  simp only [List.mem_cons, List.not_mem_nil, or_false] at ht
  rcases ht with rfl | rfl | rfl | rfl
  · exact h1
  · exact h2
  · exact h3
  · exact h4

/-- The demodulator's constants of a legal configuration (00_scope.md R8). -/
theorem Cfg.wf_demod {c : Cfg} (h : c.wf = true) :
    1 ≤ c.corrlen ∧ c.corrlen ≤ 192 ∧ 1 ≤ c.subsamp ∧ c.subsamp ≤ c.corrlen ∧ 0 < c.phinc ∧
      c.phinc < 65536 ∧ 1 ≤ c.intMax ∧ c.intMax ≤ 127 ∧ c.dllShift ≤ 15 ∧ c.dllMax ≤ 32768 := by
  simp only [Cfg.wf, Cfg.demodOk, Bool.and_eq_true, decide_eq_true_eq] at h
  obtain ⟨⟨_, h⟩, _⟩ := h
  obtain ⟨⟨⟨⟨⟨⟨⟨⟨⟨⟨⟨⟨h0, _⟩, _⟩, _⟩, _⟩, h1⟩, h2⟩, h3⟩, h4⟩, h5⟩, h6⟩, h7⟩, h8⟩ := h
  exact ⟨h0.1, h0.2, h1, h2, h3, h4, h5, h6, h7, h8⟩

/-- The modulator's constants of a legal configuration (00_scope.md R8). -/
theorem Cfg.wf_mod {c : Cfg} (h : c.wf = true) :
    1 ≤ c.spb ∧ 0 < c.ftwMark ∧ c.ftwMark < 2147483648 ∧ 0 < c.ftwSpace ∧ c.ftwSpace < 2147483648 ∧
      c.amp ≤ 32767 ∧ c.sinlut.length = 256 ∧ ∀ v ∈ c.sinlut, -32767 ≤ v ∧ v ≤ 32767 := by
  simp only [Cfg.wf, Cfg.modOk, Bool.and_eq_true, decide_eq_true_eq, beq_iff_eq, List.all_eq_true] at h
  obtain ⟨_, h⟩ := h
  obtain ⟨⟨⟨⟨⟨⟨⟨h1, h2⟩, h3⟩, h4⟩, h5⟩, h6⟩, h7⟩, h8⟩ := h
  exact ⟨h1, h2, h3, h4, h5, h6, h7, h8⟩

end Sys2Proof
end

