-- ==== Sys2Proof/Laws/Decode.lean ====
section
/-! SUPPORT. The fields of a packed word, and a word from its fields (30_encoding.md R81). -/

namespace Sys2Proof

theorem packWord_toNat (op sel : BitVec 8) (imm : BitVec 16) :
    (packWord op sel imm).toNat = op.toNat * 16777216 + sel.toNat * 65536 + imm.toNat := by
  have h1 := op.isLt
  have h2 := sel.isLt
  have h3 := imm.isLt
  unfold packWord
  rw [BitVec.toNat_append, BitVec.toNat_append, ← Nat.shiftLeft_add_eq_or_of_lt h3,
    ← Nat.shiftLeft_add_eq_or_of_lt h2, Nat.shiftLeft_eq, Nat.shiftLeft_eq]
  omega

@[simp] theorem opcodeField_packWord (op sel : BitVec 8) (imm : BitVec 16) :
    opcodeField (packWord op sel imm) = op := by
  apply BitVec.eq_of_toNat_eq
  have h1 := op.isLt
  have h2 := sel.isLt
  have h3 := imm.isLt
  rw [opcodeField, BitVec.extractLsb'_toNat, packWord_toNat, Nat.shiftRight_eq_div_pow]
  omega

@[simp] theorem selField_packWord (op sel : BitVec 8) (imm : BitVec 16) :
    selField (packWord op sel imm) = sel := by
  apply BitVec.eq_of_toNat_eq
  have h1 := op.isLt
  have h2 := sel.isLt
  have h3 := imm.isLt
  rw [selField, BitVec.extractLsb'_toNat, packWord_toNat, Nat.shiftRight_eq_div_pow]
  omega

@[simp] theorem immField_packWord (op sel : BitVec 8) (imm : BitVec 16) :
    immField (packWord op sel imm) = imm := by
  apply BitVec.eq_of_toNat_eq
  have h3 := imm.isLt
  rw [immField, BitVec.extractLsb'_toNat, packWord_toNat, Nat.shiftRight_eq_div_pow]
  omega

@[simp] theorem countField_packWord (op sel : BitVec 8) (imm : BitVec 16) :
    countField (packWord op sel imm) = sel.toNat * 65536 + imm.toNat := by
  simp [countField]

/-- A word is its three fields (30_encoding.md R81). -/
theorem packWord_fields (w : Word) : packWord (opcodeField w) (selField w) (immField w) = w := by
  apply BitVec.eq_of_toNat_eq
  have h := w.isLt
  rw [packWord_toNat, opcodeField, selField, immField, BitVec.extractLsb'_toNat, BitVec.extractLsb'_toNat,
    BitVec.extractLsb'_toNat, Nat.shiftRight_eq_div_pow, Nat.shiftRight_eq_div_pow,
    Nat.shiftRight_eq_div_pow]
  omega

/-- Two words with the same fields are one word. -/
theorem word_eq_of_fields {w v : Word} (h1 : opcodeField w = opcodeField v)
    (h2 : selField w = selField v) (h3 : immField w = immField v) : w = v := by
  rw [← packWord_fields w, ← packWord_fields v, h1, h2, h3]

/-- `ERRINFO`'s half of a packed word (10_state.md R36). -/
@[simp] theorem highHalf_packWord (op sel : BitVec 8) (imm : BitVec 16) :
    highHalf (packWord op sel imm) = op ++ sel := by
  apply BitVec.eq_of_toNat_eq
  have h1 := op.isLt
  have h2 := sel.isLt
  have h3 := imm.isLt
  rw [highHalf, BitVec.extractLsb'_toNat, packWord_toNat, Nat.shiftRight_eq_div_pow, BitVec.toNat_append,
    ← Nat.shiftLeft_add_eq_or_of_lt h2, Nat.shiftLeft_eq]
  omega

/-- A mask acts field by field (30_encoding.md R81, R84). -/
theorem packWord_and (a1 b1 : BitVec 8) (c1 : BitVec 16) (a2 b2 : BitVec 8) (c2 : BitVec 16) :
    packWord a1 b1 c1 &&& packWord a2 b2 c2 = packWord (a1 &&& a2) (b1 &&& b2) (c1 &&& c2) := by
  apply BitVec.eq_of_getLsbD_eq
  intro k hk
  have e : ∀ (a b : BitVec 8) (c : BitVec 16), (packWord a b c).getLsbD k =
      if k < 16 then c.getLsbD k else if k - 16 < 8 then b.getLsbD (k - 16) else a.getLsbD (k - 16 - 8) := by
    intro a b c
    unfold packWord
    rw [BitVec.getLsbD_append, BitVec.getLsbD_append]
  rw [BitVec.getLsbD_and, e, e, e]
  split
  · simp
  · split <;> simp

/-- A word that a format accepts keeps its zero bits (30_encoding.md R82). -/
theorem acceptFormat_ok {f : Format} {w : Word} {i j : Instr} (h : acceptFormat f w i = .ok j) :
    f.unusedBitsZero w = true ∧ i = j := by
  unfold acceptFormat at h
  split at h
  · exact ⟨‹_›, by injection h⟩
  · cases h

/-- Everything the decoder can answer, row by row (30_encoding.md R82 to R85). -/
theorem decode_cases {w : Word} {i : Instr} (h : decode w = .ok i) :
    (opcodeField w = 0 ∧ Format.Z.unusedBitsZero w = true ∧ i = .nop) ∨
    (opcodeField w = 1 ∧ Format.R.unusedBitsZero w = true ∧ i = .rdr (selField w)) ∨
    (opcodeField w = 2 ∧ Format.W.unusedBitsZero w = true ∧ i = .wrr (selField w) (immField w)) ∨
    (opcodeField w = 3 ∧ Format.Z.unusedBitsZero w = true ∧ i = .rst) ∨
    (opcodeField w = 0x10 ∧ Format.I.unusedBitsZero w = true ∧ i = .dsamp (immField w).toInt) ∨
    (opcodeField w = 0x11 ∧ Format.Z.unusedBitsZero w = true ∧ i = .desync) ∨
    (opcodeField w = 0x12 ∧ Format.Z.unusedBitsZero w = true ∧ i = .drst) ∨
    (opcodeField w = 0x20 ∧ Format.T.unusedBitsZero w = true ∧ i = .mbit ((immField w).getLsbD 0)) ∨
    (opcodeField w = 0x21 ∧ Format.B.unusedBitsZero w = true ∧ i = .mbyte ((immField w).extractLsb' 0 8)) ∨
    (opcodeField w = 0x22 ∧ Format.I.unusedBitsZero w = true ∧ i = .mpre (immField w).toNat) ∨
    (opcodeField w = 0x23 ∧ Format.N.unusedBitsZero w = true ∧ i = .msil (countField w)) ∨
    (opcodeField w = 0x24 ∧ Format.Z.unusedBitsZero w = true ∧ i = .mrst) := by
  unfold decode at h
  by_cases h0 : opcodeField w = 0x00#8
  · rw [if_pos h0] at h; obtain ⟨a, rfl⟩ := acceptFormat_ok h; simp [h0, a]
  rw [if_neg h0] at h
  by_cases h1 : opcodeField w = 0x01#8
  · rw [if_pos h1] at h; obtain ⟨a, rfl⟩ := acceptFormat_ok h; simp [h1, a]
  rw [if_neg h1] at h
  by_cases h2 : opcodeField w = 0x02#8
  · rw [if_pos h2] at h; obtain ⟨a, rfl⟩ := acceptFormat_ok h; simp [h2, a]
  rw [if_neg h2] at h
  by_cases h3 : opcodeField w = 0x03#8
  · rw [if_pos h3] at h; obtain ⟨a, rfl⟩ := acceptFormat_ok h; simp [h3, a]
  rw [if_neg h3] at h
  by_cases h4 : opcodeField w = 0x10#8
  · rw [if_pos h4] at h; obtain ⟨a, rfl⟩ := acceptFormat_ok h; simp [h4, a]
  rw [if_neg h4] at h
  by_cases h5 : opcodeField w = 0x11#8
  · rw [if_pos h5] at h; obtain ⟨a, rfl⟩ := acceptFormat_ok h; simp [h5, a]
  rw [if_neg h5] at h
  by_cases h6 : opcodeField w = 0x12#8
  · rw [if_pos h6] at h; obtain ⟨a, rfl⟩ := acceptFormat_ok h; simp [h6, a]
  rw [if_neg h6] at h
  by_cases h7 : opcodeField w = 0x20#8
  · rw [if_pos h7] at h; obtain ⟨a, rfl⟩ := acceptFormat_ok h; simp [h7, a]
  rw [if_neg h7] at h
  by_cases h8 : opcodeField w = 0x21#8
  · rw [if_pos h8] at h; obtain ⟨a, rfl⟩ := acceptFormat_ok h; simp [h8, a]
  rw [if_neg h8] at h
  by_cases h9 : opcodeField w = 0x22#8
  · rw [if_pos h9] at h; obtain ⟨a, rfl⟩ := acceptFormat_ok h; simp [h9, a]
  rw [if_neg h9] at h
  by_cases h10 : opcodeField w = 0x23#8
  · rw [if_pos h10] at h; obtain ⟨a, rfl⟩ := acceptFormat_ok h; simp [h10, a]
  rw [if_neg h10] at h
  by_cases h11 : opcodeField w = 0x24#8
  · rw [if_pos h11] at h; obtain ⟨a, rfl⟩ := acceptFormat_ok h; simp [h11, a]
  rw [if_neg h11] at h
  cases h

end Sys2Proof
end

