-- ==== Sys2Proof/Laws/State.lean ====
section
/-! SUPPORT. One lemma per field per update of the state, so that no later proof unfolds a record update. -/

namespace Sys2Proof.Machine

@[simp] theorem respond_demod (r : Response) (s : State) :
    (respond r s).demod = s.demod := rfl
@[simp] theorem respond_evt (r : Response) (s : State) :
    (respond r s).evt = s.evt := rfl
@[simp] theorem respond_ien (r : Response) (s : State) :
    (respond r s).ien = s.ien := rfl
@[simp] theorem respond_errcode (r : Response) (s : State) :
    (respond r s).errcode = s.errcode := rfl
@[simp] theorem respond_errinfo (r : Response) (s : State) :
    (respond r s).errinfo = s.errinfo := rfl
@[simp] theorem respond_mph (r : Response) (s : State) :
    (respond r s).mph = s.mph := rfl
@[simp] theorem respond_cfg (r : Response) (s : State) :
    (respond r s).cfg = s.cfg := rfl
@[simp] theorem respond_inputs (r : Response) (s : State) :
    (respond r s).inputs = s.inputs := rfl
@[simp] theorem respond_responses (r : Response) (s : State) :
    (respond r s).responses = s.responses ++ [r] := rfl
@[simp] theorem respond_byteOut (r : Response) (s : State) :
    (respond r s).byteOut = s.byteOut := rfl
@[simp] theorem respond_sampOut (r : Response) (s : State) :
    (respond r s).sampOut = s.sampOut := rfl

@[simp] theorem emitByte_demod (b : Byte) (s : State) :
    (emitByte b s).demod = s.demod := rfl
@[simp] theorem emitByte_evt (b : Byte) (s : State) :
    (emitByte b s).evt = s.evt := rfl
@[simp] theorem emitByte_ien (b : Byte) (s : State) :
    (emitByte b s).ien = s.ien := rfl
@[simp] theorem emitByte_errcode (b : Byte) (s : State) :
    (emitByte b s).errcode = s.errcode := rfl
@[simp] theorem emitByte_errinfo (b : Byte) (s : State) :
    (emitByte b s).errinfo = s.errinfo := rfl
@[simp] theorem emitByte_mph (b : Byte) (s : State) :
    (emitByte b s).mph = s.mph := rfl
@[simp] theorem emitByte_cfg (b : Byte) (s : State) :
    (emitByte b s).cfg = s.cfg := rfl
@[simp] theorem emitByte_inputs (b : Byte) (s : State) :
    (emitByte b s).inputs = s.inputs := rfl
@[simp] theorem emitByte_responses (b : Byte) (s : State) :
    (emitByte b s).responses = s.responses := rfl
@[simp] theorem emitByte_byteOut (b : Byte) (s : State) :
    (emitByte b s).byteOut = s.byteOut ++ [b] := rfl
@[simp] theorem emitByte_sampOut (b : Byte) (s : State) :
    (emitByte b s).sampOut = s.sampOut := rfl

@[simp] theorem emitSamples_demod (l : List Half) (s : State) :
    (emitSamples l s).demod = s.demod := rfl
@[simp] theorem emitSamples_evt (l : List Half) (s : State) :
    (emitSamples l s).evt = s.evt := rfl
@[simp] theorem emitSamples_ien (l : List Half) (s : State) :
    (emitSamples l s).ien = s.ien := rfl
@[simp] theorem emitSamples_errcode (l : List Half) (s : State) :
    (emitSamples l s).errcode = s.errcode := rfl
@[simp] theorem emitSamples_errinfo (l : List Half) (s : State) :
    (emitSamples l s).errinfo = s.errinfo := rfl
@[simp] theorem emitSamples_mph (l : List Half) (s : State) :
    (emitSamples l s).mph = s.mph := rfl
@[simp] theorem emitSamples_cfg (l : List Half) (s : State) :
    (emitSamples l s).cfg = s.cfg := rfl
@[simp] theorem emitSamples_inputs (l : List Half) (s : State) :
    (emitSamples l s).inputs = s.inputs := rfl
@[simp] theorem emitSamples_responses (l : List Half) (s : State) :
    (emitSamples l s).responses = s.responses := rfl
@[simp] theorem emitSamples_byteOut (l : List Half) (s : State) :
    (emitSamples l s).byteOut = s.byteOut := rfl
@[simp] theorem emitSamples_sampOut (l : List Half) (s : State) :
    (emitSamples l s).sampOut = s.sampOut ++ l := rfl

@[simp] theorem setEvent_demod (e : Event) (s : State) :
    (setEvent e s).demod = s.demod := rfl
@[simp] theorem setEvent_evt (e : Event) (s : State) :
    (setEvent e s).evt = evtWith s.evt e := rfl
@[simp] theorem setEvent_ien (e : Event) (s : State) :
    (setEvent e s).ien = s.ien := rfl
@[simp] theorem setEvent_errcode (e : Event) (s : State) :
    (setEvent e s).errcode = s.errcode := rfl
@[simp] theorem setEvent_errinfo (e : Event) (s : State) :
    (setEvent e s).errinfo = s.errinfo := rfl
@[simp] theorem setEvent_mph (e : Event) (s : State) :
    (setEvent e s).mph = s.mph := rfl
@[simp] theorem setEvent_cfg (e : Event) (s : State) :
    (setEvent e s).cfg = s.cfg := rfl
@[simp] theorem setEvent_inputs (e : Event) (s : State) :
    (setEvent e s).inputs = s.inputs := rfl
@[simp] theorem setEvent_responses (e : Event) (s : State) :
    (setEvent e s).responses = s.responses := rfl
@[simp] theorem setEvent_byteOut (e : Event) (s : State) :
    (setEvent e s).byteOut = s.byteOut := rfl
@[simp] theorem setEvent_sampOut (e : Event) (s : State) :
    (setEvent e s).sampOut = s.sampOut := rfl

@[simp] theorem resetRegisters_demod (s : State) :
    (resetRegisters s).demod = Demod.cleared s.cfg := rfl
@[simp] theorem resetRegisters_evt (s : State) :
    (resetRegisters s).evt = 0 := rfl
@[simp] theorem resetRegisters_ien (s : State) :
    (resetRegisters s).ien = 0 := rfl
@[simp] theorem resetRegisters_errcode (s : State) :
    (resetRegisters s).errcode = 0 := rfl
@[simp] theorem resetRegisters_errinfo (s : State) :
    (resetRegisters s).errinfo = 0 := rfl
@[simp] theorem resetRegisters_mph (s : State) :
    (resetRegisters s).mph = 0 := rfl
@[simp] theorem resetRegisters_cfg (s : State) :
    (resetRegisters s).cfg = s.cfg := rfl
@[simp] theorem resetRegisters_inputs (s : State) :
    (resetRegisters s).inputs = s.inputs := rfl
@[simp] theorem resetRegisters_responses (s : State) :
    (resetRegisters s).responses = s.responses := rfl
@[simp] theorem resetRegisters_byteOut (s : State) :
    (resetRegisters s).byteOut = s.byteOut := rfl
@[simp] theorem resetRegisters_sampOut (s : State) :
    (resetRegisters s).sampOut = s.sampOut := rfl

@[simp] theorem resetDemod_demod (s : State) :
    (resetDemod s).demod = Demod.cleared s.cfg := rfl
@[simp] theorem resetDemod_evt (s : State) :
    (resetDemod s).evt = s.evt := rfl
@[simp] theorem resetDemod_ien (s : State) :
    (resetDemod s).ien = s.ien := rfl
@[simp] theorem resetDemod_errcode (s : State) :
    (resetDemod s).errcode = s.errcode := rfl
@[simp] theorem resetDemod_errinfo (s : State) :
    (resetDemod s).errinfo = s.errinfo := rfl
@[simp] theorem resetDemod_mph (s : State) :
    (resetDemod s).mph = s.mph := rfl
@[simp] theorem resetDemod_cfg (s : State) :
    (resetDemod s).cfg = s.cfg := rfl
@[simp] theorem resetDemod_inputs (s : State) :
    (resetDemod s).inputs = s.inputs := rfl
@[simp] theorem resetDemod_responses (s : State) :
    (resetDemod s).responses = s.responses := rfl
@[simp] theorem resetDemod_byteOut (s : State) :
    (resetDemod s).byteOut = s.byteOut := rfl
@[simp] theorem resetDemod_sampOut (s : State) :
    (resetDemod s).sampOut = s.sampOut := rfl

@[simp] theorem regWrite_demod (r : Reg) (v : Half) (s : State) :
    (regWrite r v s).demod = demodWrite s.cfg r v s.demod := rfl
@[simp] theorem regWrite_evt (r : Reg) (v : Half) (s : State) :
    (regWrite r v s).evt = evtWrite r v s.evt := rfl
@[simp] theorem regWrite_ien (r : Reg) (v : Half) (s : State) :
    (regWrite r v s).ien = ienWrite r v s.ien := rfl
@[simp] theorem regWrite_errcode (r : Reg) (v : Half) (s : State) :
    (regWrite r v s).errcode = s.errcode := rfl
@[simp] theorem regWrite_errinfo (r : Reg) (v : Half) (s : State) :
    (regWrite r v s).errinfo = s.errinfo := rfl
@[simp] theorem regWrite_mph (r : Reg) (v : Half) (s : State) :
    (regWrite r v s).mph = mphWrite r v s.mph := rfl
@[simp] theorem regWrite_cfg (r : Reg) (v : Half) (s : State) :
    (regWrite r v s).cfg = s.cfg := rfl
@[simp] theorem regWrite_inputs (r : Reg) (v : Half) (s : State) :
    (regWrite r v s).inputs = s.inputs := rfl
@[simp] theorem regWrite_responses (r : Reg) (v : Half) (s : State) :
    (regWrite r v s).responses = s.responses := rfl
@[simp] theorem regWrite_byteOut (r : Reg) (v : Half) (s : State) :
    (regWrite r v s).byteOut = s.byteOut := rfl
@[simp] theorem regWrite_sampOut (r : Reg) (v : Half) (s : State) :
    (regWrite r v s).sampOut = s.sampOut := rfl

@[simp] theorem transmit_demod (bits : List Bool) (s : State) :
    (transmit bits s).demod = s.demod := rfl
@[simp] theorem transmit_evt (bits : List Bool) (s : State) :
    (transmit bits s).evt = s.evt := rfl
@[simp] theorem transmit_ien (bits : List Bool) (s : State) :
    (transmit bits s).ien = s.ien := rfl
@[simp] theorem transmit_errcode (bits : List Bool) (s : State) :
    (transmit bits s).errcode = s.errcode := rfl
@[simp] theorem transmit_errinfo (bits : List Bool) (s : State) :
    (transmit bits s).errinfo = s.errinfo := rfl
@[simp] theorem transmit_mph (bits : List Bool) (s : State) :
    (transmit bits s).mph = (sendBits s.cfg bits s.mph).2 := rfl
@[simp] theorem transmit_cfg (bits : List Bool) (s : State) :
    (transmit bits s).cfg = s.cfg := rfl
@[simp] theorem transmit_inputs (bits : List Bool) (s : State) :
    (transmit bits s).inputs = s.inputs := rfl
@[simp] theorem transmit_responses (bits : List Bool) (s : State) :
    (transmit bits s).responses = s.responses := rfl
@[simp] theorem transmit_byteOut (bits : List Bool) (s : State) :
    (transmit bits s).byteOut = s.byteOut := rfl
@[simp] theorem transmit_sampOut (bits : List Bool) (s : State) :
    (transmit bits s).sampOut = s.sampOut ++ (sendBits s.cfg bits s.mph).1 := rfl

@[simp] theorem latchFault_demod (code : FaultCode) (w : Word) (s : State) :
    (latchFault code w s).demod = s.demod := by unfold latchFault; split <;> rfl
@[simp] theorem latchFault_evt (code : FaultCode) (w : Word) (s : State) :
    (latchFault code w s).evt = s.evt := by unfold latchFault; split <;> rfl
@[simp] theorem latchFault_ien (code : FaultCode) (w : Word) (s : State) :
    (latchFault code w s).ien = s.ien := by unfold latchFault; split <;> rfl
@[simp] theorem latchFault_errcode (code : FaultCode) (w : Word) (s : State) :
    (latchFault code w s).errcode = if eventSet .err s then s.errcode else BitVec.ofNat 8 (faultNumber code) := by unfold latchFault; split <;> rfl
@[simp] theorem latchFault_errinfo (code : FaultCode) (w : Word) (s : State) :
    (latchFault code w s).errinfo = if eventSet .err s then s.errinfo else highHalf w := by unfold latchFault; split <;> rfl
@[simp] theorem latchFault_mph (code : FaultCode) (w : Word) (s : State) :
    (latchFault code w s).mph = s.mph := by unfold latchFault; split <;> rfl
@[simp] theorem latchFault_cfg (code : FaultCode) (w : Word) (s : State) :
    (latchFault code w s).cfg = s.cfg := by unfold latchFault; split <;> rfl
@[simp] theorem latchFault_inputs (code : FaultCode) (w : Word) (s : State) :
    (latchFault code w s).inputs = s.inputs := by unfold latchFault; split <;> rfl
@[simp] theorem latchFault_responses (code : FaultCode) (w : Word) (s : State) :
    (latchFault code w s).responses = s.responses := by unfold latchFault; split <;> rfl
@[simp] theorem latchFault_byteOut (code : FaultCode) (w : Word) (s : State) :
    (latchFault code w s).byteOut = s.byteOut := by unfold latchFault; split <;> rfl
@[simp] theorem latchFault_sampOut (code : FaultCode) (w : Word) (s : State) :
    (latchFault code w s).sampOut = s.sampOut := by unfold latchFault; split <;> rfl

@[simp] theorem raiseFault_demod (code : FaultCode) (w : Word) (s : State) :
    (raiseFault code w s).demod = s.demod := by simp [raiseFault]
@[simp] theorem raiseFault_evt (code : FaultCode) (w : Word) (s : State) :
    (raiseFault code w s).evt = evtWith s.evt .err := by simp [raiseFault]
@[simp] theorem raiseFault_ien (code : FaultCode) (w : Word) (s : State) :
    (raiseFault code w s).ien = s.ien := by simp [raiseFault]
@[simp] theorem raiseFault_errcode (code : FaultCode) (w : Word) (s : State) :
    (raiseFault code w s).errcode = if eventSet .err s then s.errcode else BitVec.ofNat 8 (faultNumber code) := by simp [raiseFault]
@[simp] theorem raiseFault_errinfo (code : FaultCode) (w : Word) (s : State) :
    (raiseFault code w s).errinfo = if eventSet .err s then s.errinfo else highHalf w := by simp [raiseFault]
@[simp] theorem raiseFault_mph (code : FaultCode) (w : Word) (s : State) :
    (raiseFault code w s).mph = s.mph := by simp [raiseFault]
@[simp] theorem raiseFault_cfg (code : FaultCode) (w : Word) (s : State) :
    (raiseFault code w s).cfg = s.cfg := by simp [raiseFault]
@[simp] theorem raiseFault_inputs (code : FaultCode) (w : Word) (s : State) :
    (raiseFault code w s).inputs = s.inputs := by simp [raiseFault]
@[simp] theorem raiseFault_responses (code : FaultCode) (w : Word) (s : State) :
    (raiseFault code w s).responses = s.responses ++ [.err code] := by simp [raiseFault]
@[simp] theorem raiseFault_byteOut (code : FaultCode) (w : Word) (s : State) :
    (raiseFault code w s).byteOut = s.byteOut := by simp [raiseFault]
@[simp] theorem raiseFault_sampOut (code : FaultCode) (w : Word) (s : State) :
    (raiseFault code w s).sampOut = s.sampOut := by simp [raiseFault]

@[simp] theorem applyReport_demod (r : DemodReport) (s : State) :
    (applyReport r s).demod = s.demod := by cases r <;> rfl
@[simp] theorem applyReport_ien (r : DemodReport) (s : State) :
    (applyReport r s).ien = s.ien := by cases r <;> rfl
@[simp] theorem applyReport_errcode (r : DemodReport) (s : State) :
    (applyReport r s).errcode = s.errcode := by cases r <;> rfl
@[simp] theorem applyReport_errinfo (r : DemodReport) (s : State) :
    (applyReport r s).errinfo = s.errinfo := by cases r <;> rfl
@[simp] theorem applyReport_mph (r : DemodReport) (s : State) :
    (applyReport r s).mph = s.mph := by cases r <;> rfl
@[simp] theorem applyReport_cfg (r : DemodReport) (s : State) :
    (applyReport r s).cfg = s.cfg := by cases r <;> rfl
@[simp] theorem applyReport_inputs (r : DemodReport) (s : State) :
    (applyReport r s).inputs = s.inputs := by cases r <;> rfl
@[simp] theorem applyReport_responses (r : DemodReport) (s : State) :
    (applyReport r s).responses = s.responses := by cases r <;> rfl
@[simp] theorem applyReport_sampOut (r : DemodReport) (s : State) :
    (applyReport r s).sampOut = s.sampOut := by cases r <;> rfl

@[simp] theorem applyReport_quiet (s : State) : applyReport .quiet s = s := rfl
@[simp] theorem applyReport_sync (s : State) : applyReport .sync s = setEvent .sync s := rfl
@[simp] theorem applyReport_byte (b : Byte) (s : State) :
    applyReport (.byte b) s = setEvent .byte (emitByte b s) := rfl

@[simp] theorem cleared_hold (c : Cfg) : (Demod.cleared c).hold = false := rfl
@[simp] theorem cleared_ph (c : Cfg) : (Demod.cleared c).ph = 0 := rfl
@[simp] theorem cleared_int (c : Cfg) : (Demod.cleared c).int = 0 := rfl
@[simp] theorem cleared_sr (c : Cfg) : (Demod.cleared c).sr = 0 := rfl
@[simp] theorem cleared_bitcnt (c : Cfg) : (Demod.cleared c).bitcnt = 0 := rfl
@[simp] theorem cleared_synced (c : Cfg) : (Demod.cleared c).synced = false := rfl
@[simp] theorem cleared_cprev (c : Cfg) : (Demod.cleared c).cprev = false := rfl
@[simp] theorem cleared_tph (c : Cfg) : (Demod.cleared c).tph = 0 := rfl
@[simp] theorem cleared_subcnt (c : Cfg) : (Demod.cleared c).subcnt = 0 := rfl
@[simp] theorem cleared_dl (c : Cfg) : (Demod.cleared c).dl = List.replicate c.corrlen 0 := rfl

@[simp] theorem trackPhase_hold (c : Cfg) (f : Int) (d : Demod) :
    (trackPhase c f d).hold = d.hold := rfl
@[simp] theorem trackPhase_ph (c : Cfg) (f : Int) (d : Demod) :
    (trackPhase c f d).ph = BitVec.ofNat 16 (nudgedPhase c f d + c.phinc) := rfl
@[simp] theorem trackPhase_int (c : Cfg) (f : Int) (d : Demod) :
    (trackPhase c f d).int = vote c f d.int := rfl
@[simp] theorem trackPhase_sr (c : Cfg) (f : Int) (d : Demod) :
    (trackPhase c f d).sr = d.sr := rfl
@[simp] theorem trackPhase_bitcnt (c : Cfg) (f : Int) (d : Demod) :
    (trackPhase c f d).bitcnt = d.bitcnt := rfl
@[simp] theorem trackPhase_synced (c : Cfg) (f : Int) (d : Demod) :
    (trackPhase c f d).synced = d.synced := rfl
@[simp] theorem trackPhase_cprev (c : Cfg) (f : Int) (d : Demod) :
    (trackPhase c f d).cprev = candidate f d.cprev := rfl
@[simp] theorem trackPhase_tph (c : Cfg) (f : Int) (d : Demod) :
    (trackPhase c f d).tph = (if candidate f d.cprev = d.cprev then d.tph else d.ph) := rfl
@[simp] theorem trackPhase_subcnt (c : Cfg) (f : Int) (d : Demod) :
    (trackPhase c f d).subcnt = d.subcnt := rfl
@[simp] theorem trackPhase_dl (c : Cfg) (f : Int) (d : Demod) :
    (trackPhase c f d).dl = d.dl := rfl

@[simp] theorem dropSync_hold (d : Demod) : (dropSync d).hold = d.hold := rfl
@[simp] theorem dropSync_ph (d : Demod) : (dropSync d).ph = d.ph := rfl
@[simp] theorem dropSync_int (d : Demod) : (dropSync d).int = d.int := rfl
@[simp] theorem dropSync_sr (d : Demod) : (dropSync d).sr = d.sr := rfl
@[simp] theorem dropSync_bitcnt (d : Demod) : (dropSync d).bitcnt = 0 := rfl
@[simp] theorem dropSync_synced (d : Demod) : (dropSync d).synced = false := rfl
@[simp] theorem dropSync_cprev (d : Demod) : (dropSync d).cprev = d.cprev := rfl
@[simp] theorem dropSync_tph (d : Demod) : (dropSync d).tph = d.tph := rfl
@[simp] theorem dropSync_subcnt (d : Demod) : (dropSync d).subcnt = d.subcnt := rfl
@[simp] theorem dropSync_dl (d : Demod) : (dropSync d).dl = d.dl := rfl

@[simp] theorem powerOn_cfg (c : Cfg) : (State.powerOn c).cfg = c := rfl
@[simp] theorem powerOn_demod (c : Cfg) : (State.powerOn c).demod = Demod.cleared c := rfl
@[simp] theorem withFetchWord_cfg (s : State) (nbits w : Nat) : (s.withFetchWord nbits w).cfg = s.cfg := rfl
@[simp] theorem withFetchWord_inputs (s : State) (nbits w : Nat) :
    (s.withFetchWord nbits w).inputs = .word (tableWord nbits w) :: s.inputs := rfl

end Sys2Proof.Machine
end

