-- ==== Sys2Proof/Laws/Demodulator.lean ====
section
/-! SUPPORT. What each part of `DSAMP` can do, said once (41_demodulator.md R121 to R134). -/

namespace Sys2Proof.Machine

/-- The delay line keeps its length (41_demodulator.md R121). -/
@[simp] theorem shiftIn_length (x : Half) (dl : List Half) : (shiftIn x dl).length = dl.length := by
  simp [shiftIn]

/-- A zero sample shifted into a silent delay line leaves the line as it is (41_demodulator.md R121, R139). -/
theorem shiftIn_silent {dl : List Half} (h : ∀ v ∈ dl, v = 0) : shiftIn 0 dl = dl := by
  rw [List.eq_replicate_of_mem h, shiftIn, ← List.replicate_succ, List.dropLast_replicate, Nat.add_sub_cancel]

/-- A silent window has no in-phase and no quadrature sum (41_demodulator.md R123). -/
theorem dot_silent (win : List Half) (tm : List Int) (h : ∀ v ∈ win, v = 0) : dot win tm = 0 := by
  induction win generalizing tm with
  | nil => cases tm <;> rfl
  | cons x xs ih =>
    cases tm with
    | nil => rfl
    | cons t ts => rw [dot, ih ts (fun v hv => h v (.tail _ hv)), h x (.head _)]; simp

/-- A silent delay line has correlation value 0 (41_demodulator.md R123, R139). -/
theorem correlation_silent (c : Cfg) {dl : List Half} (h : ∀ v ∈ dl, v = 0) : correlation c dl = 0 := by
  have hw : ∀ v ∈ window dl, v = 0 := fun v hv => h v (by simpa [window] using hv)
  simp [correlation, toneEnergy, dot_silent _ _ hw]

/-- The integrator's vote keeps the bound, and so moves an integrator that keeps it by at most one
(41_demodulator.md R126). -/
theorem vote_bounds (c : Cfg) (f int : Int) (h1 : -(c.intMax : Int) ≤ int) (h2 : int ≤ c.intMax) :
    -(c.intMax : Int) ≤ vote c f int ∧ vote c f int ≤ c.intMax := by
  unfold vote
  split
  · omega
  · split <;> omega

/-- The integrator after a latch keeps the bound (41_demodulator.md R131). -/
theorem afterLatch_bounds (c : Cfg) (int : Int) (h1 : -(c.intMax : Int) ≤ int) (h2 : int ≤ c.intMax) :
    -(c.intMax : Int) ≤ afterLatch c int ∧ afterLatch c int ≤ c.intMax := by
  unfold afterLatch
  cases c.intReset with
  | clear => simp
  | halve =>
    simp only
    rcases Int.le_total 0 int with h | h
    · rw [Int.tdiv_eq_ediv_of_nonneg h]; omega
    · have : Int.tdiv int 2 = -Int.tdiv (-int) 2 := by simp [Int.neg_tdiv]
      rw [this, Int.tdiv_eq_ediv_of_nonneg (by omega)]; omega

/-- The nudge never wraps the phase: the result is in 0..65536 (41_demodulator.md R128). -/
theorem nudge_le (c : Cfg) (ph : Nat) (h : ph < 65536) : nudge c ph ≤ 65536 := by
  unfold nudge
  split
  · exact le_trans (Nat.sub_le _ _) h.le
  · have : (65536 - ph) >>> c.dllShift ≤ 65536 - ph := by
      rw [Nat.shiftRight_eq_div_pow]; exact Nat.div_le_self _ _
    omega

/-- The phase before the advance is in 0..65536 (41_demodulator.md R129). -/
theorem nudgedPhase_le (c : Cfg) (f : Int) (d : Demod) : nudgedPhase c f d ≤ 65536 := by
  unfold nudgedPhase
  split
  · have := d.ph.isLt; omega
  · exact nudge_le c _ d.ph.isLt

/-- The bits of the shift register after a latch (41_demodulator.md R132). -/
theorem shiftBit_getLsbD (b : Bool) (sr : Byte) (k : Nat) (hk : k < 8) :
    (shiftBit b sr).getLsbD k = if k = 7 then b else sr.getLsbD (k + 1) := by
  unfold shiftBit
  rw [BitVec.getLsbD_append]
  split
  · rw [BitVec.getLsbD_extractLsb', if_neg (by omega)]; simp [*, Nat.add_comm]
  · have : k = 7 := by omega
    subst this; simp

/-- Everything byte assembly can do (41_demodulator.md R134). -/
theorem assemble_cases (d : Demod) :
    (d.synced = true ∧ d.bitcnt = 7 ∧ assemble d = ({ d with bitcnt := 0 }, .byte d.sr)) ∨
    (d.synced = true ∧ d.bitcnt ≠ 7 ∧ assemble d = ({ d with bitcnt := d.bitcnt + 1 }, .quiet)) ∨
    (d.synced = false ∧ assemble d = (d, .quiet)) := by
  unfold assemble
  by_cases h : d.synced = true
  · by_cases h7 : d.bitcnt = 7#3
    · exact .inl ⟨h, h7, by simp [h, h7]⟩
    · exact .inr (.inl ⟨h, h7, by simp [h, h7]⟩)
  · exact .inr (.inr ⟨by simpa using h, by simp [h]⟩)

/-- Everything the end of a latch can do: a match, a byte, a counted bit, or nothing (41_demodulator.md R133,
R134). -/
theorem matchOrAssemble_cases (c : Cfg) (d : Demod) :
    (matchTakesEffect c d = true ∧
      matchOrAssemble c d = ({ d with synced := true, bitcnt := 0 }, .sync)) ∨
    (matchTakesEffect c d = false ∧ d.synced = true ∧ d.bitcnt = 7 ∧
      matchOrAssemble c d = ({ d with bitcnt := 0 }, .byte d.sr)) ∨
    (matchTakesEffect c d = false ∧ d.synced = true ∧ d.bitcnt ≠ 7 ∧
      matchOrAssemble c d = ({ d with bitcnt := d.bitcnt + 1 }, .quiet)) ∨
    (matchTakesEffect c d = false ∧ d.synced = false ∧ matchOrAssemble c d = (d, .quiet)) := by
  unfold matchOrAssemble
  cases hm : matchTakesEffect c d with
  | true => exact .inl ⟨rfl, by simp⟩
  | false =>
    simp only [Bool.false_eq_true, if_false]
    rcases assemble_cases d with ⟨h1, h2, h3⟩ | ⟨h1, h2, h3⟩ | ⟨h1, h3⟩
    · exact .inr (.inl ⟨trivial, h1, h2, h3⟩)
    · exact .inr (.inr (.inl ⟨trivial, h1, h2, h3⟩))
    · exact .inr (.inr (.inr ⟨trivial, h1, h3⟩))

/-- The end of a latch leaves every register but `SYNCED` and `BITCNT` alone (41_demodulator.md R133, R134). -/
theorem matchOrAssemble_frame (c : Cfg) (d : Demod) :
    ∃ (sy : Bool) (bc : BitVec 3), (matchOrAssemble c d).1 = { d with synced := sy, bitcnt := bc } := by
  rcases matchOrAssemble_cases c d with ⟨_, h⟩ | ⟨_, _, _, h⟩ | ⟨_, _, _, h⟩ | ⟨_, _, h⟩
  · exact ⟨true, 0, by rw [h]⟩
  · exact ⟨d.synced, 0, by rw [h]⟩
  · exact ⟨d.synced, d.bitcnt + 1, by rw [h]⟩
  · exact ⟨d.synced, d.bitcnt, by rw [h]⟩

/-- What a correlation step leaves alone, and where the phase, the transition phase, the candidate and the
shift register end, whether or not a bit is latched (41_demodulator.md R127 to R132). -/
theorem stepWith_frame (c : Cfg) (f : Int) (d : Demod) :
    (stepWith c f d).1.hold = d.hold ∧ (stepWith c f d).1.dl = d.dl ∧
    (stepWith c f d).1.subcnt = d.subcnt ∧
    (stepWith c f d).1.ph = (trackPhase c f d).ph ∧ (stepWith c f d).1.tph = (trackPhase c f d).tph ∧
    (stepWith c f d).1.cprev = candidate f d.cprev ∧
    (stepWith c f d).1.int =
      (if wraps c f d then afterLatch c (vote c f d.int) else vote c f d.int) ∧
    (stepWith c f d).1.sr =
      (if wraps c f d then shiftBit (slice (vote c f d.int)) d.sr else d.sr) := by
  unfold stepWith
  cases hw : wraps c f d with
  | false => simp
  | true =>
    obtain ⟨sy, bc, h⟩ := matchOrAssemble_frame c
      { trackPhase c f d with
        int := afterLatch c (trackPhase c f d).int
        sr := shiftBit (slice (trackPhase c f d).int) (trackPhase c f d).sr }
    simp only [if_true, latchBit, h]
    simp

/-- Everything `DSAMP` does on the context: the shift alone, or the shift and a correlation step
(41_demodulator.md R120, R122). -/
theorem demodSample_cases (c : Cfg) (x : Half) (d : Demod) :
    (d.subcnt + 1 ≠ c.subsamp ∧
      demodSample c x d = ({ d with dl := shiftIn x d.dl, subcnt := d.subcnt + 1 }, .quiet)) ∨
    (d.subcnt + 1 = c.subsamp ∧
      demodSample c x d =
        stepWith c (correlation c (shiftIn x d.dl)) { d with dl := shiftIn x d.dl, subcnt := 0 }) := by
  unfold demodSample
  by_cases h : d.subcnt + 1 = c.subsamp
  · exact .inr ⟨h, by simp [h, correlationStep]⟩
  · exact .inl ⟨h, by simp [h]⟩

/-- The delay line after `DSAMP`, whether or not the stride ends (41_demodulator.md R121). -/
@[simp] theorem demodSample_dl (c : Cfg) (x : Half) (d : Demod) :
    (demodSample c x d).1.dl = shiftIn x d.dl := by
  rcases demodSample_cases c x d with ⟨_, h⟩ | ⟨_, h⟩
  · rw [h]
  · rw [h]; exact (stepWith_frame c _ _).2.1

/-- `DSAMP` leaves `HOLD` alone (41_demodulator.md R137). -/
@[simp] theorem demodSample_hold (c : Cfg) (x : Half) (d : Demod) :
    (demodSample c x d).1.hold = d.hold := by
  rcases demodSample_cases c x d with ⟨_, h⟩ | ⟨_, h⟩
  · rw [h]
  · rw [h]; exact (stepWith_frame c _ _).1

end Sys2Proof.Machine
end

