-- ==== Sys2Proof/Laws/Modulator.lean ====
section
/-! SUPPORT. The tone generator and the bit serialiser, said once (42_modulator.md R160 to R167). -/

namespace Sys2Proof.Machine

/-- Two runs of one tone in a row are one longer run (42_modulator.md R161). -/
theorem tone_add (c : Cfg) (v : Bool) (j k : Nat) (p : Word) :
    tone c v (j + k) p =
      ((tone c v j p).1 ++ (tone c v k (tone c v j p).2).1, (tone c v k (tone c v j p).2).2) := by
  induction j generalizing p with
  | zero => simp [tone]
  | succ j ih => rw [Nat.succ_add]; simp [tone, ih]

/-- A tone emits as many samples as asked for (42_modulator.md R160). -/
@[simp] theorem tone_length (c : Cfg) (v : Bool) (k : Nat) (p : Word) : (tone c v k p).1.length = k := by
  induction k generalizing p with
  | zero => rfl
  | succ k ih => simp [tone, ih]

@[simp] theorem sendBits_nil (c : Cfg) (p : Word) : sendBits c [] p = ([], p) := rfl

/-- One bit is one tone of `SPB` samples (42_modulator.md R160). -/
@[simp] theorem sendBits_singleton (c : Cfg) (v : Bool) (p : Word) :
    sendBits c [v] p = tone c v c.spb p := by
  simp [sendBits]

/-- Sending two lists of bits in a row carries the phase from the first to the second (42_modulator.md R165). -/
theorem sendBits_append (c : Cfg) (l m : List Bool) (p : Word) :
    sendBits c (l ++ m) p =
      ((sendBits c l p).1 ++ (sendBits c m (sendBits c l p).2).1, (sendBits c m (sendBits c l p).2).2) := by
  induction l generalizing p with
  | nil => simp [sendBits]
  | cons v vs ih => simp [sendBits, ih]

/-- `SPB` samples per bit (42_modulator.md R166). -/
@[simp] theorem sendBits_length (c : Cfg) (l : List Bool) (p : Word) :
    (sendBits c l p).1.length = c.spb * l.length := by
  induction l generalizing p with
  | nil => simp [sendBits]
  | cons v vs ih => simp [sendBits, ih, Nat.mul_succ, Nat.add_comm]

@[simp] theorem wireBits_length (b : Byte) : (wireBits b).length = 8 := rfl

@[simp] theorem preambleBits_length (c : Cfg) (n : Nat) : (preambleBits c n).length = 8 * n := by
  induction n with
  | zero => rfl
  | succ n ih => simp [preambleBits, ih]; omega

end Sys2Proof.Machine
end

