-- ==== Sys2Proof/Laws/Ops.lean ====
section
/-! SUPPORT. For each shared operation, once, everything it can do: faults, the register port, the arms of
`exec` and the step. -/

namespace Sys2Proof.Machine

/-- An event's bit is set by `evtWith`, and every other bit stays (60_exceptions.md R184). -/
theorem evtWith_getLsbD (evt : BitVec 4) (e : Event) (k : Nat) (hk : k < 4) :
    (evtWith evt e).getLsbD k = (evt.getLsbD k || decide (k = eventBit e)) := by
  have : k = 0 ∨ k = 1 ∨ k = 2 ∨ k = 3 := by omega
  rcases this with rfl | rfl | rfl | rfl <;> cases e <;> simp [evtWith, eventBit]

/-- Write-one-to-clear, bit by bit (10_state.md R33). -/
theorem evtCleared_getLsbD (evt : BitVec 4) (v : Half) (k : Nat) (hk : k < 4) :
    (evtCleared evt v).getLsbD k = (evt.getLsbD k && !v.getLsbD k) := by
  have : k = 0 ∨ k = 1 ∨ k = 2 ∨ k = 3 := by omega
  rcases this with rfl | rfl | rfl | rfl <;> simp [evtCleared]

/-- A fault number is 1, 2 or 3 (60_exceptions.md R182). -/
theorem faultNumber_range (code : FaultCode) : 1 ≤ faultNumber code ∧ faultNumber code ≤ 3 := by
  cases code <;> decide

/-- What `raise Fault(code)` does, field by field (60_exceptions.md R181). -/
theorem raiseFault_eq (code : FaultCode) (w : Word) (s : State) :
    raiseFault code w s =
      { s with
        evt := evtWith s.evt .err
        errcode := if eventSet .err s then s.errcode else BitVec.ofNat 8 (faultNumber code)
        errinfo := if eventSet .err s then s.errinfo else highHalf w
        responses := s.responses ++ [.err code] } := by
  unfold raiseFault latchFault
  split <;> rfl

@[simp] theorem regOf_ctrl (c : Cfg) : regOf c 0x00#8 = some .ctrl := rfl
@[simp] theorem regOf_evt (c : Cfg) : regOf c 0x01#8 = some .evt := rfl
@[simp] theorem regOf_ien (c : Cfg) : regOf c 0x02#8 = some .ien := rfl
@[simp] theorem regOf_errcode (c : Cfg) : regOf c 0x03#8 = some .errcode := rfl
@[simp] theorem regOf_errinfo (c : Cfg) : regOf c 0x04#8 = some .errinfo := rfl
@[simp] theorem regOf_dph (c : Cfg) : regOf c 0x10#8 = some .dph := rfl
@[simp] theorem regOf_dint (c : Cfg) : regOf c 0x11#8 = some .dint := rfl
@[simp] theorem regOf_dsr (c : Cfg) : regOf c 0x12#8 = some .dsr := rfl
@[simp] theorem regOf_dflg (c : Cfg) : regOf c 0x13#8 = some .dflg := rfl
@[simp] theorem regOf_dsub (c : Cfg) : regOf c 0x14#8 = some .dsub := rfl
@[simp] theorem regOf_dtph (c : Cfg) : regOf c 0x15#8 = some .dtph := rfl
@[simp] theorem regOf_mphl (c : Cfg) : regOf c 0x20#8 = some .mphl := rfl
@[simp] theorem regOf_mphh (c : Cfg) : regOf c 0x21#8 = some .mphh := rfl

/-- A selector that names a register is that register's selector, and a delay line entry is in range
(20_memory.md R61). -/
theorem regOf_some {c : Cfg} {sel : Byte} {r : Reg} (h : regOf c sel = some r) :
    selectorOf r = sel ∧ ∀ i, r = .dl i → i < c.corrlen := by
  unfold regOf at h
  cases hf : portMap.find? (fun e => e.1 == sel) with
  | some e =>
    simp only [hf, Option.some.injEq] at h
    subst h
    have hall : ∀ e ∈ portMap, selectorOf e.2 = e.1 ∧ ∀ i, e.2 ≠ .dl i := by simp [portMap, selectorOf]
    obtain ⟨h1, h2⟩ := hall e (List.mem_of_find?_eq_some hf)
    have h3 := List.find?_some hf
    simp only [beq_iff_eq] at h3
    exact ⟨h1.trans h3, fun i hi => absurd hi (h2 i)⟩
  | none =>
    simp only [hf, delayLineReg] at h
    split at h
    · obtain rfl := Option.some.inj h
      refine ⟨?_, by rintro i ⟨⟩; omega⟩
      have : 64 + (sel.toNat - 64) = sel.toNat := by omega
      simp [selectorOf, this]
    · cases h

/-- The selector of a delay line entry in range names it, when `CORRLEN` is legal (20_memory.md R61). -/
theorem regOf_selectorOf_dl {c : Cfg} {i : Nat} (hc : c.corrlen ≤ 192) (hi : i < c.corrlen) :
    regOf c (selectorOf (.dl i)) = some (.dl i) := by
  have hn : (selectorOf (.dl i)).toNat = 0x40 + i := by
    rw [selectorOf, BitVec.toNat_ofNat]; exact Nat.mod_eq_of_lt (by omega)
  have hf : portMap.find? (fun e => e.1 == selectorOf (.dl i)) = none := by
    rw [List.find?_eq_none]
    intro e he
    have hlow : ∀ e ∈ portMap, e.1.toNat < 0x40 := by decide
    have := hlow e he
    rw [beq_iff_eq]
    rintro h
    rw [h, hn] at this
    omega
  rw [regOf, hf]
  simp only [delayLineReg, hn]
  rw [if_pos ⟨by omega, by omega⟩]
  congr 2
  omega

/-- The selectors that name a register (20_memory.md R61), when `CORRLEN` is legal. -/
theorem selectorMapped_iff {c : Cfg} (hc : c.corrlen ≤ 192) (sel : Byte) :
    selectorMapped c sel ↔ ∃ r, regOf c sel = some r := by
  constructor
  · intro h
    unfold regOf
    cases hf : portMap.find? (fun e => e.1 == sel) with
    | some e => exact ⟨_, rfl⟩
    | none =>
      rw [List.find?_eq_none] at hf
      have hne : ∀ k : Byte, (∃ e ∈ portMap, e.1 = k) → sel ≠ k := by
        rintro k ⟨e, he, rfl⟩ rfl
        exact hf e he (by simp)
      have hn : ∀ k : Byte, (∃ e ∈ portMap, e.1 = k) → sel.toNat ≠ k.toNat := fun k hk h =>
        hne k hk (BitVec.eq_of_toNat_eq h)
      have a0 := hn 0 (by decide)
      have a1 := hn 1 (by decide)
      have a2 := hn 2 (by decide)
      have a3 := hn 3 (by decide)
      have a4 := hn 4 (by decide)
      have b0 := hn 0x10 (by decide)
      have b1 := hn 0x11 (by decide)
      have b2 := hn 0x12 (by decide)
      have b3 := hn 0x13 (by decide)
      have b4 := hn 0x14 (by decide)
      have b5 := hn 0x15 (by decide)
      have c0 := hn 0x20 (by decide)
      have c1 := hn 0x21 (by decide)
      simp at a0 a1 a2 a3 a4 b0 b1 b2 b3 b4 b5 c0 c1
      unfold selectorMapped at h
      simp only [delayLineReg]
      rw [if_pos (by omega)]
      exact ⟨_, rfl⟩
  · rintro ⟨r, hr⟩
    obtain ⟨h1, h2⟩ := regOf_some hr
    subst h1
    cases r with
    | dl i =>
      have := h2 i rfl
      have hn : (selectorOf (.dl i)).toNat = 0x40 + i := by
        rw [selectorOf, BitVec.toNat_ofNat]; exact Nat.mod_eq_of_lt (by omega)
      unfold selectorMapped; omega
    | _ => simp [selectorMapped, selectorOf]

/-- A selector outside the map names nothing (20_memory.md R61). -/
theorem regOf_unmapped {c : Cfg} (hc : c.corrlen ≤ 192) {sel : Byte} (h : ¬ selectorMapped c sel) :
    regOf c sel = none := by
  cases hr : regOf c sel with
  | none => rfl
  | some r => exact absurd ((selectorMapped_iff hc sel).2 ⟨r, hr⟩) h

@[simp] theorem exec_nop (s : State) : exec .nop s = execNop s := rfl
@[simp] theorem exec_rdr (sel : Byte) (s : State) : exec (.rdr sel) s = execRdr sel s := rfl
@[simp] theorem exec_wrr (sel : Byte) (v : Half) (s : State) : exec (.wrr sel v) s = execWrr sel v s := rfl
@[simp] theorem exec_rst (s : State) : exec .rst s = execRst s := rfl
@[simp] theorem exec_dsamp (x : Int) (s : State) : exec (.dsamp x) s = execDsamp x s := rfl
@[simp] theorem exec_desync (s : State) : exec .desync s = execDesync s := rfl
@[simp] theorem exec_drst (s : State) : exec .drst s = execDrst s := rfl
@[simp] theorem exec_mbit (v : Bool) (s : State) : exec (.mbit v) s = execMbit v s := rfl
@[simp] theorem exec_mbyte (b : Byte) (s : State) : exec (.mbyte b) s = execMbyte b s := rfl
@[simp] theorem exec_mpre (n : Nat) (s : State) : exec (.mpre n) s = execMpre n s := rfl
@[simp] theorem exec_msil (n : Nat) (s : State) : exec (.msil n) s = execMsil n s := rfl
@[simp] theorem exec_mrst (s : State) : exec .mrst s = execMrst s := rfl

/-- `RDR` of a selector that names a register (40_system_ops.md R101). -/
theorem execRdr_mapped {s : State} {sel : Byte} {r : Reg} (h : regOf s.cfg sel = some r) :
    execRdr sel s = .next (respond (.ok (regRead r s)) s) := by
  simp only [execRdr, h]

/-- `RDR` of a selector that names nothing (40_system_ops.md R101). -/
theorem execRdr_unmapped {s : State} {sel : Byte} (h : regOf s.cfg sel = none) :
    execRdr sel s = .next (raiseFault .badSel (encode (.rdr sel)) s) := by
  simp only [execRdr, h]

/-- `WRR` of a writable register (40_system_ops.md R102). -/
theorem execWrr_writable {s : State} {sel : Byte} {r : Reg} (v : Half) (h : regOf s.cfg sel = some r)
    (hr : readOnly r = false) : execWrr sel v s = .next (respond (.ok 0) (regWrite r v s)) := by
  simp only [execWrr, h, hr, Bool.false_eq_true, if_false]

/-- `WRR` of a read-only register (40_system_ops.md R102). -/
theorem execWrr_readOnly {s : State} {sel : Byte} {r : Reg} (v : Half) (h : regOf s.cfg sel = some r)
    (hr : readOnly r = true) : execWrr sel v s = .next (raiseFault .roWrite (encode (.wrr sel v)) s) := by
  simp only [execWrr, h, hr, if_true]

/-- `WRR` of a selector that names nothing (40_system_ops.md R102). -/
theorem execWrr_unmapped {s : State} {sel : Byte} (v : Half) (h : regOf s.cfg sel = none) :
    execWrr sel v s = .next (raiseFault .badSel (encode (.wrr sel v)) s) := by
  simp only [execWrr, h]

/-- Everything `RDR` can do (40_system_ops.md R101). -/
theorem execRdr_cases {sel : Byte} {s t : State} (h : execRdr sel s = .next t) :
    (regOf s.cfg sel = none ∧ t = raiseFault .badSel (encode (.rdr sel)) s) ∨
    (∃ r, regOf s.cfg sel = some r ∧ t = respond (.ok (regRead r s)) s) := by
  unfold execRdr at h
  cases hr : regOf s.cfg sel with
  | none => simp only [hr] at h; injection h with h; exact .inl ⟨rfl, h.symm⟩
  | some r => simp only [hr] at h; injection h with h; exact .inr ⟨r, rfl, h.symm⟩

/-- Everything `WRR` can do (40_system_ops.md R102). -/
theorem execWrr_cases {sel : Byte} {v : Half} {s t : State} (h : execWrr sel v s = .next t) :
    (regOf s.cfg sel = none ∧ t = raiseFault .badSel (encode (.wrr sel v)) s) ∨
    (∃ r, regOf s.cfg sel = some r ∧ readOnly r = true ∧
      t = raiseFault .roWrite (encode (.wrr sel v)) s) ∨
    (∃ r, regOf s.cfg sel = some r ∧ readOnly r = false ∧ t = respond (.ok 0) (regWrite r v s)) := by
  unfold execWrr at h
  cases hr : regOf s.cfg sel with
  | none => simp only [hr] at h; injection h with h; exact .inl ⟨rfl, h.symm⟩
  | some r =>
    simp only [hr] at h
    split at h
    · injection h with h; exact .inr (.inl ⟨r, rfl, ‹readOnly r = true›, h.symm⟩)
    · injection h with h; exact .inr (.inr ⟨r, rfl, by simpa using ‹¬readOnly r = true›, h.symm⟩)

/-- Everything a step can do: the configuration is legal and the block is idle, accepts a reset pulse, runs a
decoded operation, or answers an illegal word. -/
theorem step_cases {s t : State} (h : step s = .next t) :
    s.cfg.wf = true ∧
      ((s.inputs = [] ∧ t = s) ∨
       (∃ rest, s.inputs = .resetPin :: rest ∧ t = resetRegisters { s with inputs := rest }) ∨
       (∃ w rest i, s.inputs = .word w :: rest ∧ decode w = .ok i ∧
          exec i { s with inputs := rest } = .next t) ∨
       (∃ w rest e, s.inputs = .word w :: rest ∧ decode w = .error e ∧
          t = raiseFault .illOp w { s with inputs := rest })) := by
  unfold step at h
  split at h
  case isFalse => cases h
  case isTrue hwf =>
    refine ⟨hwf, ?_⟩
    cases hin : s.inputs with
    | nil =>
      simp only [acceptInput, hin] at h
      injection h with h
      exact .inl ⟨rfl, h.symm⟩
    | cons x rest =>
      cases x with
      | resetPin =>
        simp only [acceptInput, hin, pulseResetPin] at h
        injection h with h
        exact .inr (.inl ⟨rest, rfl, h.symm⟩)
      | word w =>
        simp only [acceptInput, hin, runWord] at h
        cases hd : decode w with
        | ok i => simp only [hd] at h; exact .inr (.inr (.inl ⟨w, rest, i, rfl, hd, h⟩))
        | error e =>
          simp only [hd, execIllegal] at h
          injection h with h
          exact .inr (.inr (.inr ⟨w, rest, e, rfl, hd, h.symm⟩))

/-- What an operation that faults answers (60_exceptions.md R182). -/
theorem exec_of_faults {i : Instr} {s : State} (h : opFaults s.cfg i = true) :
    ∃ code, (code = .badSel ∨ code = .roWrite) ∧ exec i s = .next (raiseFault code (encode i) s) := by
  cases i <;> simp [opFaults] at h
  · rename_i sel
    exact ⟨.badSel, .inl rfl, by simp only [exec_rdr, execRdr, h]⟩
  · rename_i sel v
    cases hr : regOf s.cfg sel with
    | none => exact ⟨.badSel, .inl rfl, by simp only [exec_wrr, execWrr, hr]⟩
    | some r =>
      have : readOnly r = true := by simpa [hr] using h
      exact ⟨.roWrite, .inr rfl, by simp only [exec_wrr, execWrr, hr, this, if_true]⟩

/-- Everything an operation can do to `EVT` (60_exceptions.md R184). -/
theorem exec_evt_cases {i : Instr} {s t : State} (h : exec i s = .next t) :
    t.evt = s.evt ∨
    (∃ x, i = .dsamp x ∧ (t.evt = evtWith s.evt .sync ∨ t.evt = evtWith s.evt .byte)) ∨
    (i = .desync ∧ s.demod.synced = true ∧ t.evt = evtWith s.evt .desync) ∨
    (opFaults s.cfg i = true ∧ t.evt = evtWith s.evt .err) ∨
    (i = .rst ∧ t.evt = 0) ∨ (∃ v, i = .wrr 0x01 v ∧ t.evt = evtCleared s.evt v) := by
  by_cases hf : opFaults s.cfg i = true
  · obtain ⟨code, _, he⟩ := exec_of_faults hf
    rw [he] at h; injection h with h; subst h
    exact .inr (.inr (.inr (.inl ⟨hf, by simp⟩)))
  cases i with
  | rdr sel =>
    rcases execRdr_cases h with ⟨h1, rfl⟩ | ⟨r, h1, rfl⟩
    · simp [opFaults, h1] at hf
    · exact .inl (by simp)
  | wrr sel v =>
    rcases execWrr_cases h with ⟨h1, rfl⟩ | ⟨r, h1, h2, rfl⟩ | ⟨r, h1, h2, rfl⟩
    · simp [opFaults, h1] at hf
    · simp [opFaults, h1, h2] at hf
    · obtain ⟨a, _⟩ := regOf_some h1
      subst a
      cases r <;> first | exact .inl rfl | exact .inr (.inr (.inr (.inr (.inr ⟨v, rfl, rfl⟩))))
  | dsamp x =>
    injection h with h; subst h
    simp only [respond_evt]
    cases (demodSample s.cfg (u16 x) s.demod).2 with
    | quiet => exact .inl rfl
    | sync => exact .inr (.inl ⟨x, rfl, .inl rfl⟩)
    | byte b => exact .inr (.inl ⟨x, rfl, .inr rfl⟩)
  | desync =>
    injection h with h; subst h
    simp only [respond_evt]
    cases hs : s.demod.synced with
    | true => exact .inr (.inr (.inl ⟨trivial, rfl, rfl⟩))
    | false => exact .inl rfl
  | rst => injection h with h; subst h; exact .inr (.inr (.inr (.inr (.inl ⟨rfl, rfl⟩))))
  | _ => injection h with h; subst h; exact .inl (by simp)

/-- Everything an operation can do to the demodulator context (10_state.md R38). -/
theorem exec_demod_cases {i : Instr} {s t : State} (h : exec i s = .next t) :
    t.demod = s.demod ∨
    (∃ x, i = .dsamp x ∧ t.demod = (demodSample s.cfg (u16 x) s.demod).1) ∨
    ((i = .rst ∨ i = .drst) ∧ t.demod = Demod.cleared s.cfg) ∨
    (i = .desync ∧ t.demod = dropSync s.demod) ∨
    (∃ sel v r, i = .wrr sel v ∧ regOf s.cfg sel = some r ∧ contextReg r = true ∧
      t.demod = demodWrite s.cfg r v s.demod) := by
  cases i with
  | wrr sel v =>
    rcases execWrr_cases h with ⟨_, rfl⟩ | ⟨r, _, _, rfl⟩ | ⟨r, h1, h2, rfl⟩
    · exact .inl (by simp)
    · exact .inl (by simp)
    · cases hc : contextReg r with
      | true => exact .inr (.inr (.inr (.inr ⟨sel, v, r, rfl, h1, hc, rfl⟩)))
      | false => refine .inl ?_; cases r <;> first | rfl | simp [contextReg] at hc
  | rdr sel =>
    rcases execRdr_cases h with ⟨_, rfl⟩ | ⟨r, _, rfl⟩ <;> exact .inl (by simp)
  | dsamp x => injection h with h; subst h; exact .inr (.inl ⟨x, rfl, by simp⟩)
  | desync => injection h with h; subst h; exact .inr (.inr (.inr (.inl ⟨rfl, rfl⟩)))
  | rst => injection h with h; subst h; exact .inr (.inr (.inl ⟨.inl rfl, rfl⟩))
  | drst => injection h with h; subst h; exact .inr (.inr (.inl ⟨.inr rfl, rfl⟩))
  | _ => injection h with h; subst h; exact .inl (by simp)

end Sys2Proof.Machine
end

