-- ==== Sys2Proof/Laws/PerInstr.lean ====
section
/-! SUPPORT. Statements made instruction by instruction: every operation's word matches its own row of the
opcode map (30_encoding.md R84). -/

namespace Sys2Proof.Laws.EncodesInOwnRow

open Sys2Proof

/-- The word of the operation matches a row of the opcode map that carries its mnemonic. -/
def Statement (i : Instr) : Prop :=
  ∃ r ∈ opcodeTable, r.mnemonic = i.mnemonic ∧ encode i &&& r.mask = r.value

/-- Masking a packed word, field by field. -/
theorem packWord_mask {a1 b1 : BitVec 8} {c1 : BitVec 16} (a2 b2 : BitVec 8) (c2 : BitVec 16) {m v : Word}
    (hm : m = packWord a2 b2 c2) (hv : packWord (a1 &&& a2) (b1 &&& b2) (c1 &&& c2) = v) :
    packWord a1 b1 c1 &&& m = v := by
  rw [hm, packWord_and, hv]

theorem nop : Statement .nop := ⟨⟨.nop, .Z, 0xFFFFFFFF#32, 0x00000000#32⟩, by decide, rfl, by decide⟩

theorem rdr (sel : Byte) : Statement (.rdr sel) := by
  refine ⟨⟨.rdr, .R, 0xFF00FFFF#32, 0x01000000#32⟩, by decide, rfl, ?_⟩
  exact packWord_mask 0xFF 0x00 0xFFFF (by decide) (by simp; decide)

theorem wrr (sel : Byte) (v : Half) : Statement (.wrr sel v) := by
  refine ⟨⟨.wrr, .W, 0xFF000000#32, 0x02000000#32⟩, by decide, rfl, ?_⟩
  exact packWord_mask 0xFF 0x00 0x0000 (by decide) (by simp; decide)

theorem rst : Statement .rst := ⟨⟨.rst, .Z, 0xFFFFFFFF#32, 0x03000000#32⟩, by decide, rfl, by decide⟩

theorem dsamp (x : Int) : Statement (.dsamp x) := by
  refine ⟨⟨.dsamp, .I, 0xFFFF0000#32, 0x10000000#32⟩, by decide, rfl, ?_⟩
  exact packWord_mask 0xFF 0xFF 0x0000 (by decide) (by simp; decide)

theorem desync : Statement .desync := ⟨⟨.desync, .Z, 0xFFFFFFFF#32, 0x11000000#32⟩, by decide, rfl, by decide⟩

theorem drst : Statement .drst := ⟨⟨.drst, .Z, 0xFFFFFFFF#32, 0x12000000#32⟩, by decide, rfl, by decide⟩

theorem mbit (v : Bool) : Statement (.mbit v) := by
  refine ⟨⟨.mbit, .T, 0xFFFFFFFE#32, 0x20000000#32⟩, by decide, rfl, ?_⟩
  cases v <;> decide

theorem mbyte (b : Byte) : Statement (.mbyte b) := by
  refine ⟨⟨.mbyte, .B, 0xFFFFFF00#32, 0x21000000#32⟩, by decide, rfl, ?_⟩
  exact packWord_mask 0xFF 0xFF 0xFF00 (by decide) (by revert b; decide)

theorem mpre (n : Nat) : Statement (.mpre n) := by
  refine ⟨⟨.mpre, .I, 0xFFFF0000#32, 0x22000000#32⟩, by decide, rfl, ?_⟩
  exact packWord_mask 0xFF 0xFF 0x0000 (by decide) (by simp; decide)

theorem msil (n : Nat) : Statement (.msil n) := by
  refine ⟨⟨.msil, .N, 0xFF000000#32, 0x23000000#32⟩, by decide, rfl, ?_⟩
  exact packWord_mask 0xFF 0x00 0x0000 (by decide) (by simp; decide)

theorem mrst : Statement .mrst := ⟨⟨.mrst, .Z, 0xFFFFFFFF#32, 0x24000000#32⟩, by decide, rfl, by decide⟩

end Sys2Proof.Laws.EncodesInOwnRow
end

