-- ==== Sys2Proof/Tests/Slice0.lean ====
section
/-! SUPPORT. Tests: the well-formedness smoke test, words written out from the encoding, single steps with the
expected results of 95_test_vectors.md and of the rules' examples, and a state and operands that meet the
hypotheses of each statement that has some. -/

section

set_option Elab.async false

open Sys2Proof Sys2Proof.Machine

/-- The outcome is a next state that satisfies the check. -/
def nextMeets (o : Host.Outcome State Fault Refusal) (p : State → Bool) : Bool :=
  match o with
  | .next t => p t
  | .fault _ => false
  | .refused _ => false

/-- The state after reset with the host about to present the word. -/
def presented (w : Word) : State := { State.reset with inputs := [.word w] }

/-- The delay line before the last sample of the setups of V20 and V30: `MARKWIN`, then 12600. -/
def markLine : List Half := u16 12600 :: ((P0.tmI.drop 1).map (fun t => u16 (100 * t))).reverse

/-- The delay line before the last sample of the setups of V22 and V31: `SPACEWIN`, then 12600. -/
def spaceLine : List Half := u16 12600 :: ((P0.tsI.drop 1).map (fun t => u16 (100 * t))).reverse

/-- A demodulator one sample before the end of a stride. -/
def strideEnd (dl : List Half) (ph : Half) (int : Int) (sr : Byte) (synced cprev : Bool) (bitcnt : BitVec 3)
    (hold : Bool) : Demod :=
  { hold := hold, ph := ph, int := int, sr := sr, bitcnt := bitcnt, synced := synced, cprev := cprev, tph := 0,
    subcnt := 1, dl := dl }

/-- The reset state with another demodulator context. -/
def withDemod (d : Demod) : State := { State.reset with demod := d }

/-! ### Well-formedness: each check refuses an ill-formed term -/

theorem test_wellFormed_refuses_sample_too_large : ¬ (Instr.dsamp 32768).WellFormed := by decide
theorem test_wellFormed_refuses_sample_too_small : ¬ (Instr.dsamp (-32769)).WellFormed := by decide
theorem test_wellFormed_refuses_preamble_count : ¬ (Instr.mpre 65536).WellFormed := by decide
theorem test_wellFormed_refuses_silence_count : ¬ (Instr.msil 16777216).WellFormed := by decide
theorem test_wellFormed_accepts_boundaries :
    (Instr.dsamp 32767).WellFormed ∧ (Instr.dsamp (-32768)).WellFormed ∧ (Instr.mpre 65535).WellFormed ∧
      (Instr.msil 16777215).WellFormed := by decide

/-! ### Configuration: each group of checks refuses an ill-formed record -/

theorem test_cfg_refuses_bad_rates :
    Cfg.ratesOk { Cfg.P0 with spb := 83 } = false ∧ Cfg.ratesOk { Cfg.P0 with fSpace := ⟨12500, 6⟩ } = false ∧
      Cfg.ratesOk { Cfg.P0 with fsD := 4166 } = false := by decide
theorem test_cfg_refuses_bad_demodulator :
    Cfg.demodOk { Cfg.P0 with subsamp := 0 } = false ∧ Cfg.demodOk { Cfg.P0 with phinc := 65536 } = false ∧
      Cfg.demodOk { Cfg.P0 with corrlen := 41 } = false := by decide +kernel
theorem test_cfg_refuses_bad_modulator :
    Cfg.modOk { Cfg.P0 with ftwMark := 2147483648 } = false ∧ Cfg.modOk { Cfg.P0 with sinlut := [0] } = false := by
  decide +kernel

/-! ### Words written out from 30_encoding.md R82 to R84 and the examples of R86 and R88 -/

theorem test_decode_nop : decode 0x00000000#32 = .ok .nop := by decide
theorem test_decode_rdr : decode 0x01110000#32 = .ok (.rdr 0x11) := by decide
theorem test_decode_wrr : decode 0x02108000#32 = .ok (.wrr 0x10 0x8000) := by decide
theorem test_decode_rst : decode 0x03000000#32 = .ok .rst := by decide
theorem test_decode_dsamp : decode 0x1000FFFF#32 = .ok (.dsamp (-1)) := by decide
theorem test_decode_desync : decode 0x11000000#32 = .ok .desync := by decide
theorem test_decode_drst : decode 0x12000000#32 = .ok .drst := by decide
theorem test_decode_mbit : decode 0x20000001#32 = .ok (.mbit true) := by decide
theorem test_decode_mbyte : decode 0x210000AB#32 = .ok (.mbyte 0xAB) := by decide
theorem test_decode_mpre : decode 0x22000010#32 = .ok (.mpre 16) := by decide
theorem test_decode_msil : decode 0x23011170#32 = .ok (.msil 70000) := by decide
theorem test_decode_mrst : decode 0x24000000#32 = .ok .mrst := by decide
theorem test_decode_illegal_bit_set :
    decode 0x00000001#32 = .error (.unusedBitSet 0x00) ∧ decode 0x01000001#32 = .error (.unusedBitSet 0x01) ∧
      decode 0x10010000#32 = .error (.unusedBitSet 0x10) ∧ decode 0x20000002#32 = .error (.unusedBitSet 0x20) ∧
      decode 0x21000100#32 = .error (.unusedBitSet 0x21) := by decide
theorem test_decode_unassigned :
    decode 0x04000000#32 = .error (.unassignedOpcode 0x04) ∧
      decode 0x25000000#32 = .error (.unassignedOpcode 0x25) ∧
      decode 0xFFFFFFFF#32 = .error (.unassignedOpcode 0xFF) := by decide
theorem test_decodeTableWord :
    decodeTableWord 32 0x02000001 = some (.wrr 0x00 1) ∧ decodeTableWord 32 0x13000000 = none ∧
      decodeTableWord 32 0x10008000 = some (.dsamp (-32768)) := by decide
theorem test_encode_words :
    encode (.wrr 0x00 1) = 0x02000001#32 ∧ encode (.msil 70000) = 0x23011170#32 ∧
      encode (.dsamp (-1)) = 0x1000FFFF#32 ∧ encode (.mbyte 0xAB) = 0x210000AB#32 := by decide

/-! ### Single steps (95_test_vectors.md) -/

/-- V1: rows `0x00000000` and `0x01690000`. -/
theorem test_step_nop_and_rdr :
    nextMeets (step (State.reset.withFetchWord 32 0x00000000)) (fun t => t.responses == [.ok 0]) = true ∧
      nextMeets (step (State.reset.withFetchWord 32 0x01690000)) (fun t => t.responses == [.ok 0]) = true := by
  decide +kernel

/-- V1: rows `0x016A0000`, `0x02030001`, `0x02050001`, `0x99000000` of P4: the fault record. -/
theorem test_step_faults :
    nextMeets (step (presented 0x016A0000)) (fun t => t.responses == [.err .badSel] && t.evt == 8
      && t.errcode == 2 && t.errinfo == 0x016A) = true ∧
    nextMeets (step (presented 0x02030001)) (fun t => t.responses == [.err .roWrite] && t.evt == 8
      && t.errcode == 3 && t.errinfo == 0x0203) = true ∧
    nextMeets (step (presented 0x02050001)) (fun t => t.responses == [.err .badSel] && t.evt == 8
      && t.errcode == 2 && t.errinfo == 0x0205) = true ∧
    nextMeets (step (presented 0x00000001)) (fun t => t.responses == [.err .illOp] && t.evt == 8
      && t.errcode == 1 && t.errinfo == 0x0000) = true := by decide +kernel

/-- 40_system_ops.md R101, Example, and V2: `INT` = -3. -/
theorem test_rdr_dint :
    nextMeets (exec (.rdr 0x11) { State.reset with demod := { State.reset.demod with int := -3 } })
      (fun t => t.responses == [.ok 0xFFFD]) = true := by decide +kernel

/-- P4, rows 11 and 33 to 35: the packed `DFLG`; the halves of `MPH`. -/
theorem test_rdr_dflg_and_mph :
    nextMeets (exec (.rdr 0x13) (withDemod (strideEnd [] 0 0 0 true true 7 false)))
      (fun t => t.responses == [.ok 0x0073]) = true ∧
    nextMeets (exec (.rdr 0x21) { State.reset with mph := 0xFFFF0000 })
      (fun t => t.responses == [.ok 0xFFFF]) = true := by decide +kernel

/-- 40_system_ops.md R102, Corner cases: `DINT`, `DSUB`. -/
theorem test_wrr_warl :
    nextMeets (exec (.wrr 0x11 0x7FFF) State.reset) (fun t => t.demod.int == 10) = true ∧
    nextMeets (exec (.wrr 0x11 0x8000) State.reset) (fun t => t.demod.int == -10) = true ∧
    nextMeets (exec (.wrr 0x14 3) State.reset) (fun t => t.demod.subcnt == 1) = true := by decide +kernel

/-- P4, rows 10, 28 and 19: `DFLG`, write-one-to-clear, the last delay line entry. -/
theorem test_wrr_dflg_evt_dl :
    nextMeets (exec (.wrr 0x13 0xFFFF) State.reset)
      (fun t => t.demod.synced && t.demod.cprev && t.demod.bitcnt == 7 && t.evt == 0) = true ∧
    nextMeets (exec (.wrr 0x01 8) { State.reset with evt := 12, errcode := 2 })
      (fun t => t.evt == 4 && t.errcode == 2) = true ∧
    nextMeets (exec (.wrr 0x69 0x8000) State.reset) (fun t => t.demod.dl.getD 41 0 == 0x8000) = true := by
  decide +kernel

/-- P4, row 46. -/
theorem test_rst : nextMeets (exec .rst { State.reset with evt := 12, mph := 5, errcode := 3, errinfo := 7 })
    (fun t => t == { State.reset with responses := [.ok 0] }) = true := by decide +kernel

/-- P4, rows 39 to 43: `DRST` leaves `EVT` and `MPH`. -/
theorem test_drst :
    nextMeets (exec .drst { withDemod (strideEnd markLine 7 3 1 true true 2 true) with evt := 12, mph := 5 })
      (fun t => t.demod == State.reset.demod && t.evt == 12 && t.mph == 5) = true := by decide +kernel

/-- 40_system_ops.md R105, Example. -/
theorem test_mrst : nextMeets (exec .mrst { State.reset with mph := 0xFFFFFFF0 }) (fun t => t.mph == 0) = true := by
  decide +kernel

/-- V34 and 41_demodulator.md R141, Example. -/
theorem test_desync :
    nextMeets (exec .desync { withDemod (strideEnd markLine 7 3 1 true true 5 true) with evt := 3 })
      (fun t => t.demod == strideEnd markLine 7 3 1 false true 0 true && t.evt == 7) = true := by decide +kernel

/-- 41_demodulator.md R141, pseudocode, where `SYNCED` is 0 and `BITCNT` is not (log entry 15). -/
theorem test_desync_while_searching :
    nextMeets (exec .desync { withDemod (strideEnd markLine 7 3 1 false true 5 true) with evt := 3 })
      (fun t => t.demod == strideEnd markLine 7 3 1 false true 0 true && t.evt == 3) = true := by decide +kernel

/-- V10 and V11: the correlation value. -/
theorem test_correlation :
    correlation Cfg.P0 (P0.tmI.reverse.map (fun t => u16 (100 * t))) = 1113690384000000 ∧
      correlation Cfg.P0 (P0.tsI.reverse.map (fun t => u16 (100 * t))) = -1125656180640000 ∧
      correlation Cfg.P0 (List.replicate 42 (u16 (-32768))) = 17179869184 := by decide +kernel

/-- V20, rows `0x0002`, `0x7FFF`, `0xF000`, and V22. -/
theorem test_dsamp_nudge :
    nextMeets (exec (.dsamp 10400) (withDemod (strideEnd markLine 0x0002 0 0 false false 0 false)))
      (fun t => t.demod.tph == 2 && t.demod.ph == 3122 && t.demod.cprev && t.demod.int == 1) = true ∧
    nextMeets (exec (.dsamp 10400) (withDemod (strideEnd markLine 0x7FFF 0 0 false false 0 false)))
      (fun t => t.demod.tph == 0x7FFF && t.demod.ph == 27696) = true ∧
    nextMeets (exec (.dsamp 10400) (withDemod (strideEnd markLine 0xF000 0 0 false false 0 false)))
      (fun t => t.demod.ph == 1073 && t.demod.sr == 0x80 && t.demod.int == 0) = true ∧
    nextMeets (exec (.dsamp 11400) (withDemod (strideEnd spaceLine 0x2000 5 0 false true 0 false)))
      (fun t => t.demod.tph == 8192 && t.demod.ph == 7217 && t.demod.int == 4 && !t.demod.cprev) = true := by
  decide +kernel

/-- V30, rows 3, 4, 5 and 7; V31, `int` = 1; V32, `int` = -6. -/
theorem test_dsamp_latch :
    nextMeets (exec (.dsamp 10400) (withDemod (strideEnd markLine 0xF800 3 0x56 true true 3 false)))
      (fun t => t.demod.sr == 0xAB && t.demod.bitcnt == 0 && t.evt == 1 && t.byteOut == []) = true ∧
    nextMeets (exec (.dsamp 10400) (withDemod (strideEnd markLine 0xF800 3 0x56 true true 3 true)))
      (fun t => t.demod.bitcnt == 4 && t.evt == 0 && t.byteOut == []) = true ∧
    nextMeets (exec (.dsamp 10400) (withDemod (strideEnd markLine 0xF800 3 0x56 true true 7 true)))
      (fun t => t.demod.bitcnt == 0 && t.evt == 2 && t.byteOut == [0xAB]) = true ∧
    nextMeets (exec (.dsamp 10400) (withDemod (strideEnd markLine 0xF800 3 0x82 true true 7 false)))
      (fun t => t.demod.bitcnt == 0 && t.evt == 2 && t.byteOut == [0xC1]) = true ∧
    nextMeets (exec (.dsamp 11400) (withDemod (strideEnd spaceLine 0xF800 1 0x57 true false 7 true)))
      (fun t => t.demod.sr == 0x2B && t.byteOut == [0x2B] && t.evt == 2) = true ∧
    nextMeets (exec (.dsamp 11400)
      { withDemod (strideEnd spaceLine 0xF800 (-6) 0 false false 0 false) with
        cfg := { Cfg.P0 with intReset := .halve } })
      (fun t => t.demod.int == -3 && t.demod.sr == 0) = true := by decide +kernel

/-- V37: `MPHH` = `0xC000`, `MBIT 0`. -/
theorem test_mbit :
    nextMeets (exec (.mbit false) { State.reset with mph := 0xC0000000 })
      (fun t => t.sampOut.take 6 == [-16384, -15986, -14811, -12916, -10394, -7366].map u16
        && t.sampOut.length == 84 && t.mph == 0xBFFFFFF4) = true := by decide +kernel

/-- V36: `MBYTE 0xAB`, samples 166 to 169, from phase 0. -/
theorem test_mbyte :
    nextMeets (exec (.mbyte 0xAB) State.reset)
      (fun t => (t.sampOut.drop 166).take 4 == [-9434, -5139, -402, 3589].map u16
        && t.sampOut.length == 672 && t.mph == 0xFFFFFF8C) = true := by decide +kernel

/-- V38: `MPRE 0`; and `MPRE 1` leaves the phase of one sync byte. -/
theorem test_mpre :
    nextMeets (exec (.mpre 0) { State.reset with mph := 9 }) (fun t => t.sampOut == [] && t.mph == 9) = true ∧
      nextMeets (exec (.mpre 1) State.reset) (fun t => t.mph == 0xFFFFFF8C) = true := by decide +kernel

/-- V38: `MSIL 3`. -/
theorem test_msil :
    nextMeets (exec (.msil 3) { State.reset with mph := 0xFFFFFF8C })
      (fun t => t.sampOut == [0, 0, 0] && t.mph == 0) = true := by decide +kernel

/-- 30_encoding.md R89 and 42_modulator.md R171: the host's program has 152 words for `TEXT` of 42 characters
(95_test_vectors.md P5). -/
theorem test_transmission_length :
    (transmission (List.replicate 42 0x2D) 4375 43750 4375).length = 152 := by decide +kernel

/-! ### Every statement with hypotheses: a state and operands that meet them -/

theorem witness_DecodeEncodeAgree : (Instr.dsamp (-32768)).WellFormed ∧ (Instr.msil 16777215).WellFormed := by
  decide
theorem witness_DecodedWordIsItsEncoding : decode 0x02FF8001#32 = .ok (.wrr 0xFF 0x8001) := by decide
theorem witness_DecodeFollowsTheOpcodeMap :
    (⟨.mbit, .T, 0xFFFFFFFE#32, 0x20000000#32⟩ : OpcodeRow) ∈ opcodeTable ∧
      0x20000001#32 &&& 0xFFFFFFFE#32 = 0x20000000#32 ∧ ∀ r ∈ opcodeTable, 0x20000002#32 &&& r.mask ≠ r.value := by
  decide
theorem witness_OperandsAreReadFromTheWord :
    decode 0x01FF0000#32 = .ok (.rdr 0xFF) ∧ decode 0x02FFFFFF#32 = .ok (.wrr 0xFF 0xFFFF) ∧
      decode 0x10007FFF#32 = .ok (.dsamp 32767) ∧ decode 0x10008000#32 = .ok (.dsamp (-32768)) ∧
      decode 0x20000000#32 = .ok (.mbit false) ∧ decode 0x210000FF#32 = .ok (.mbyte 0xFF) ∧
      decode 0x2200FFFF#32 = .ok (.mpre 65535) ∧ decode 0x23FFFFFF#32 = .ok (.msil 16777215) := by decide
theorem witness_StepRunsTheDecodedOperation :
    (presented 0x24000000).cfg.wf = true ∧ (presented 0x24000000).inputs = .word 0x24000000#32 :: [] ∧
      decode 0x24000000#32 = .ok .mrst ∧ (presented 0x13000000).inputs = .word 0x13000000#32 :: [] ∧
      decode 0x13000000#32 = .error (.unassignedOpcode 0x13) := by decide +kernel
theorem witness_IllegalWordRaisesIllop :
    (∀ r ∈ opcodeTable, 0x0F000000#32 &&& r.mask ≠ r.value) ∧ (0x0F000000#32).toNat / 16777216 = 0x0F ∧
      (0x04000000#32).toNat / 16777216 = 0x04 ∧ (0x13000000#32).toNat / 16777216 = 0x13 ∧
      (0x1FFFFFFF#32).toNat / 16777216 = 0x1F ∧ (0x25000000#32).toNat / 16777216 = 0x25 ∧
      (⟨.rdr, .R, 0xFF00FFFF#32, 0x01000000#32⟩ : OpcodeRow) ∈ opcodeTable ∧
      (0x01000001#32).toNat / 16777216 = (0x01000000#32).toNat / 16777216 ∧
      0x01000001#32 &&& 0xFF00FFFF#32 ≠ 0x01000000#32 := by decide
theorem witness_IdleAndRefusedSteps :
    State.reset.cfg.wf = true ∧ State.reset.inputs = [] ∧ Cfg.wf { Cfg.P0 with amp := 32768 } = false := by
  decide +kernel
theorem witness_EveryStepOfAnInstanceCompletes : State.reset.cfg.wf = true := by decide +kernel
theorem witness_StreamsOnlyGrow :
    nextMeets (step (presented 0x23000001))
      (fun t => t == { State.reset with responses := [.ok 0], sampOut := [0] }) = true := by decide +kernel
theorem witness_ResetInputZeroesEveryRegister :
    (⟨State.reset.demod, 3, 0, 0, 0, 9, Cfg.P0, [.resetPin], [], [], []⟩ : State).cfg.wf = true ∧
      (⟨State.reset.demod, 3, 0, 0, 0, 9, Cfg.P0, [.resetPin], [], [], []⟩ : State).inputs = .resetPin :: [] := by
  decide +kernel
theorem witness_EverySelectorReadsZeroAfterRst : State.reset.cfg.wf = true ∧ selectorMapped Cfg.P0 0x69 := by
  refine ⟨by decide +kernel, ?_⟩
  unfold selectorMapped
  decide
theorem witness_NopOnlyResponds : (0x00000001#32).toNat / 16777216 = 0 ∧ 0x00000001#32 ≠ 0 := by decide
theorem witness_RdrReadsEverySelector :
    State.reset.Inv ∧ State.reset.demod.dl[41]? = some 0 ∧ ¬ selectorMapped Cfg.P0 0x6A ∧
      ¬ selectorMapped Cfg.P0 0x05 ∧ (0x01030001#32).toNat / 16777216 = 1 ∧ (0x01030001#32).toNat % 65536 ≠ 0 := by
  refine ⟨by decide +kernel, by decide +kernel, ?_, ?_, by decide, by decide⟩ <;> unfold selectorMapped <;> decide
theorem witness_WrrWritesEverySelector :
    State.reset.Inv ∧ 41 < State.reset.cfg.corrlen ∧ ¬ selectorMapped Cfg.P0 0x22 := by
  refine ⟨by decide +kernel, by decide, ?_⟩
  unfold selectorMapped
  decide
theorem witness_WriteThenReadGivesTheLegalValue :
    State.reset.Inv ∧ selectorMapped Cfg.P0 0x69 ∧ (0x69#8 ≠ 0x01 ∧ 0x69#8 ≠ 0x03 ∧ 0x69#8 ≠ 0x04) ∧
      selectorMapped Cfg.P0 0x00 ∧ selectorMapped Cfg.P0 0x14 := by
  refine ⟨by decide +kernel, ?_, by decide, ?_, ?_⟩ <;> unfold selectorMapped <;> decide
theorem witness_WriteLeavesOtherSelectorsAlone :
    State.reset.Inv ∧ opFaults State.reset.cfg (.wrr 0x20 5) = false ∧
      nextMeets (exec (.wrr 0x20 5) State.reset)
        (fun t => t == { State.reset with mph := 5, responses := [.ok 0] }) = true ∧
      (0x20#8 ≠ 0x21) ∧ regOf State.reset.cfg 0x21 = some .mphh := by
  refine ⟨by decide +kernel, by decide, by decide +kernel, by decide, rfl⟩
theorem witness_RestoreGivesTheSavedSession :
    (withDemod (strideEnd markLine 7 3 1 true true 2 true)).Inv ∧ State.reset.Inv ∧
      (contextRegs Cfg.P0).reverse.Perm (contextRegs Cfg.P0) :=
  ⟨by decide +kernel, by decide +kernel, List.reverse_perm _⟩
theorem witness_OperationsFaultOnlyAsListed :
    (∀ r ∈ opcodeTable, 0x99000000#32 &&& r.mask ≠ r.value) ∧ State.reset.cfg.wf = true ∧
      opFaults State.reset.cfg (.wrr 0x02 8) = false ∧ ¬ selectorMapped State.reset.cfg 0x6A := by
  refine ⟨by decide, by decide +kernel, by decide, ?_⟩
  unfold selectorMapped
  decide
/-- A recorded fault, and for each clause a fault at the edge of its range. -/
theorem witness_AcknowledgeRearmsTheFaultRecord :
    (⟨State.reset.demod, 8, 0, 2, 0x026A, 0, Cfg.P0, [], [], [], []⟩ : State).cfg.wf = true ∧
      (⟨State.reset.demod, 8, 0, 2, 0x026A, 0, Cfg.P0, [], [], [], []⟩ : State).evt.getLsbD 3 = true ∧
      (∀ r ∈ opcodeTable, 0x01000001#32 &&& r.mask ≠ r.value) ∧ ¬ selectorMapped Cfg.P0 0x6A ∧
      ¬ selectorMapped Cfg.P0 0x05 ∧ (0x04#8 = 0x03 ∨ 0x04#8 = 0x04) := by
  refine ⟨by decide +kernel, by decide, by decide, ?_, ?_, by decide⟩ <;> unfold selectorMapped <;> decide

/-- One step that clears an event bit, and for each bit one that sets it. -/
theorem witness_EventBitsChangeOnlyByTheirSources :
    nextMeets (step { presented 0x02010008 with evt := 8 }) (fun t => !t.evt.getLsbD 3) = true ∧
    nextMeets (step { presented 0x100028A0 with demod := strideEnd markLine 0xF800 3 0x56 false true 0 false })
      (fun t => t.evt.getLsbD 0) = true ∧
    nextMeets (step { presented 0x100028A0 with demod := strideEnd markLine 0xF800 3 0x82 true true 7 false })
      (fun t => t.evt.getLsbD 1) = true ∧
    nextMeets (step { presented 0x11000000 with demod := strideEnd markLine 0 0 0 true true 0 false })
      (fun t => t.evt.getLsbD 2) = true ∧
    nextMeets (step (presented 0x99000000)) (fun t => t.evt.getLsbD 3) = true := by decide +kernel
theorem witness_InterruptLineIsALevel : Instr.rdr 0x01 ≠ .rdr 0x02 := by decide
theorem witness_DsampShiftsTheDelayLine : 0 < State.reset.demod.dl.length ∧ 40 + 1 < State.reset.demod.dl.length := by
  decide
theorem witness_DsampWithinTheStride : State.reset.demod.subcnt + 1 ≠ State.reset.cfg.subsamp := by decide
theorem witness_DsampNeverFaults : (strideEnd markLine 0 0 0 true true 0 false).synced = true := by decide
theorem witness_CorrelationIsTheEnergyDifference : Cfg.P0.wf = true ∧ markLine.length = Cfg.P0.corrlen := by
  decide +kernel
theorem witness_CorrelatorFitsSixtyFourBits : Cfg.P0.wf = true ∧ spaceLine.length = Cfg.P0.corrlen := by
  decide +kernel

/-- Also for the clause of a nudge to exactly 65536: a shift of 0 and the largest bound, at `PH` = 32768. -/
theorem witness_DsampTracksTheBitPhase :
    (withDemod (strideEnd markLine 0xC000 0 0 false false 0 false)).Inv ∧
      (strideEnd markLine 0xC000 0 0 false false 0 false).subcnt + 1 = Cfg.P0.subsamp ∧ 1 ≤ Cfg.P0.dllShift ∧
      State.Inv { withDemod (strideEnd markLine 0x8000 0 0 false false 0 false) with
        cfg := { Cfg.P0 with dllShift := 0, dllMax := 32768 } } ∧
      candidate (correlation Cfg.P0 (u16 10400 :: markLine).dropLast) false = true := by decide +kernel
theorem witness_DsampVotesWithoutAWrap :
    (withDemod (strideEnd markLine 0x0002 0 0 false false 0 false)).Inv ∧
      nudgedPhase Cfg.P0 (correlation Cfg.P0 (u16 10400 :: markLine).dropLast)
        (strideEnd markLine 0x0002 0 0 false false 0 false) + Cfg.P0.phinc < 65536 := by decide +kernel
theorem witness_DsampLatchesABitAtAWrap :
    (withDemod (strideEnd markLine 0xF800 3 0x56 true true 7 true)).Inv ∧
      65536 ≤ nudgedPhase Cfg.P0 (correlation Cfg.P0 (u16 10400 :: markLine).dropLast)
        (strideEnd markLine 0xF800 3 0x56 true true 7 true) + Cfg.P0.phinc := by decide +kernel
theorem witness_AtMostOneByteAndOneBitPerSample :
    nextMeets (exec (.dsamp 10400) (withDemod (strideEnd markLine 0xF800 3 0x82 true true 7 false)))
      (fun t => t.byteOut == [0xC1] && t.demod.sr == 0xC1) = true := by decide +kernel
/-- On either side of the wrap: `PH + PHINC` is 65536 and 65535. -/
theorem witness_SilenceAdvancesThePhase :
    (withDemod (strideEnd (List.replicate 42 0) 62415 3 0 true true 1 false)).Inv ∧
      (List.replicate 42 (0 : Half)).all (fun v => v == 0) = true ∧ 62415 + Cfg.P0.phinc = 65536 ∧
      (withDemod (strideEnd (List.replicate 42 0) 62414 3 0 true true 1 false)).Inv ∧
      62414 + Cfg.P0.phinc = 65535 := by
  decide +kernel
theorem witness_StreamingEquivalence :
    State.reset.cfg = { State.reset with evt := 3 }.cfg ∧ State.reset.demod = { State.reset with evt := 3 }.demod ∧
      (isDsamp (.dsamp 7) = true ∨ writesContext Cfg.P0 (.dsamp 7) = false) ∧
      (isDsamp (.wrr 0x02 1) = true ∨ writesContext Cfg.P0 (.wrr 0x02 1) = false) := by decide +kernel

/-- `DESYNC`, `DRST`, `RST`, the reset input and a write to `DFLG` each drop `SYNCED`. -/
theorem witness_SyncIsLostOnlyOnRequest :
    [HostInput.word 0x11000000, .word 0x12000000, .word 0x03000000, .resetPin, .word 0x02130000].all (fun x =>
      nextMeets (step { withDemod (strideEnd markLine 0 0 0 true true 0 false) with inputs := [x] })
        (fun t => !t.demod.synced)) = true := by decide +kernel
theorem witness_BitCountIsZeroWhileSearching :
    nextMeets (step (presented 0x10000005)) (fun t => t.demod.bitcnt == 0) = true ∧
      State.reset.demod.bitcnt = 0 ∧ decode 0x10000005#32 = .ok (.dsamp 5) := by decide +kernel
theorem witness_SamplesFitSixteenBits : Cfg.P0.wf = true := by decide +kernel
theorem witness_MpreIsRepeatedMbyte :
    65535 < 65536 ∧ packWord 0x22 0x00 (BitVec.ofNat 16 65535) = 0x2200FFFF#32 := by decide
theorem witness_MsilEmitsZerosFromPhaseZero :
    16777215 < 16777216 ∧
      packWord 0x23 (BitVec.ofNat 8 (16777215 / 65536)) (BitVec.ofNat 16 16777215) = 0x23FFFFFF#32 := by decide
theorem witness_SampleCountAndDeterminism :
    State.reset.cfg = { State.reset with evt := 3 }.cfg ∧ State.reset.mph = { State.reset with evt := 3 }.mph := by
  decide +kernel

/-- Every owner of `MPH` changes it. -/
theorem witness_PhaseChangesOnlyByItsOwners :
    [HostInput.word 0x03000000, .word 0x24000000, .resetPin, .word 0x20000001, .word 0x21000041, .word 0x22000001,
      .word 0x23000000, .word 0x02200001, .word 0x02210001].all (fun x =>
      nextMeets (step { State.reset with mph := 0x00050007, inputs := [x] }) (fun t => t.mph != 0x00050007)) =
        true := by decide +kernel
theorem witness_StepKeepsTheInvariant :
    (presented 0x10000005).Inv ∧ nextMeets (step (presented 0x10000005)) (fun t => t.demod.subcnt == 1) = true := by
  decide +kernel
theorem witness_DemodAndModOperationsCommute :
    demodOnly Cfg.P0 (.dsamp 7) = true ∧ phaseOnly Cfg.P0 (.mbit true) = true ∧
      demodOnly Cfg.P0 (.rdr 0x69) = true ∧ phaseOnly Cfg.P0 (.wrr 0x21 3) = true := by decide
theorem witness_FalseSyncAcrossTwoCharacters :
    (0x57#8).toNat < 128 ∧ (0x41#8).toNat < 128 ∧ 1 < 8 ∧
      ((wireBits 0x57 ++ wireBits 0x41).drop 1).take 8 = wireBits 0xAB ∧
      ((wireBits 0x58 ++ wireBits 0x2D).drop 3).take 8 = wireBits 0xAB ∧
      ((wireBits 0x7F ++ wireBits 0x75).drop 5).take 8 = wireBits 0xAB := by decide

end
end

section
/-! SUPPORT. The decoder against the opcode map (30_encoding.md R82 to R86): the fields of a word as numbers,
a row's mask and value as its format and opcode, and what the decoder answers for a word of a row's opcode. -/

namespace Sys2Proof

/-! ### The fields of a word as numbers -/

theorem opcodeField_toNat (w : Word) : (opcodeField w).toNat = w.toNat / 16777216 := by
  have h := w.isLt
  rw [opcodeField, BitVec.extractLsb'_toNat, Nat.shiftRight_eq_div_pow]
  omega

theorem selField_toNat (w : Word) : (selField w).toNat = w.toNat / 65536 % 256 := by
  rw [selField, BitVec.extractLsb'_toNat, Nat.shiftRight_eq_div_pow]

theorem immField_toNat (w : Word) : (immField w).toNat = w.toNat % 65536 := by
  rw [immField, BitVec.extractLsb'_toNat, Nat.shiftRight_zero]

/-- The immediate as a two's-complement number (30_encoding.md R83, `sext_16`). -/
theorem immField_toInt (w : Word) :
    (immField w).toInt = if w.toNat % 65536 < 32768 then ((w.toNat % 65536 : Nat) : Int)
      else ((w.toNat % 65536 : Nat) : Int) - 65536 := by
  rw [BitVec.toInt_eq_toNat_cond, immField_toNat]
  split <;> split <;> omega

/-- The line byte of format `B` (30_encoding.md R82). -/
theorem immByte_toNat (w : Word) : ((immField w).extractLsb' 0 8).toNat = w.toNat % 256 := by
  rw [BitVec.extractLsb'_toNat, Nat.shiftRight_zero, immField_toNat]
  omega

/-- The bit of format `T` (30_encoding.md R82). -/
theorem immBit_toNat (w : Word) : ((immField w).getLsbD 0).toNat = w.toNat % 2 := by
  rw [BitVec.getLsbD, immField_toNat, Nat.testBit_zero]
  have h : w.toNat % 2 = 0 ∨ w.toNat % 2 = 1 := by omega
  rcases h with h | h <;> simp [h, Nat.mod_mod_of_dvd]

theorem countField_toNat (w : Word) :
    countField w = w.toNat / 65536 % 256 * 65536 + w.toNat % 65536 := by
  rw [countField, selField_toNat, immField_toNat]

/-! ### A row of the opcode map, field by field -/

/-- The selector bits that a format requires to be 0 (30_encoding.md R82). -/
def Format.zeroSel : Format → BitVec 8
  | .Z | .I | .B | .T => 0xFF
  | .R | .W | .N => 0x00

/-- The immediate bits that a format requires to be 0 (30_encoding.md R82). -/
def Format.zeroImm : Format → BitVec 16
  | .Z | .R => 0xFFFF
  | .B => 0xFF00
  | .T => 0xFFFE
  | .W | .I | .N => 0x0000

/-- A field is 0 from bit `k` up iff masking those bits leaves 0. -/
theorem highBits_eq_zero_iff (x : BitVec 16) (k : Nat) :
    x.extractLsb' k (16 - k) = 0 ↔ x &&& (BitVec.allOnes 16 <<< k) = 0 := by
  constructor
  · intro h
    refine BitVec.eq_of_getLsbD_eq fun j hj => ?_
    by_cases hk : j < k
    · simp [hk]
    · have hbit : (x.extractLsb' k (16 - k)).getLsbD (j - k) = false := by rw [h]; simp
      have hlt : j - k < 16 - k := by omega
      have hadd : k + (j - k) = j := by omega
      simp only [BitVec.getLsbD_extractLsb', hlt, hadd, decide_true, Bool.true_and] at hbit
      simp [hbit]
  · intro h
    refine BitVec.eq_of_getLsbD_eq fun j hj => ?_
    have hbit : (x &&& (BitVec.allOnes 16 <<< k)).getLsbD (k + j) = false := by rw [h]; simp
    have hlt : k + j < 16 := by omega
    have hj16 : j < 16 := by omega
    simp only [BitVec.getLsbD_and, BitVec.getLsbD_shiftLeft, BitVec.getLsbD_allOnes] at hbit
    simpa [hj, hlt, hj16] using hbit

/-- A format's zero bits as two masks (30_encoding.md R82). -/
theorem Format.unusedBitsZero_iff (f : Format) (w : Word) :
    f.unusedBitsZero w = true ↔ selField w &&& f.zeroSel = 0 ∧ immField w &&& f.zeroImm = 0 := by
  have hsel (x : BitVec 8) : x &&& 0xFF#8 = x := BitVec.and_allOnes
  have himm (x : BitVec 16) : x &&& 0xFFFF#16 = x := BitVec.and_allOnes
  have hbyte : (immField w).extractLsb' 8 8 = 0 ↔ immField w &&& 0xFF00#16 = 0 :=
    highBits_eq_zero_iff _ 8
  have hbit : (immField w).extractLsb' 1 15 = 0 ↔ immField w &&& 0xFFFE#16 = 0 :=
    highBits_eq_zero_iff _ 1
  cases f with
  | B => simpa [unusedBitsZero, zeroSel, zeroImm, hsel] using fun _ => hbyte
  | T => simpa [unusedBitsZero, zeroSel, zeroImm, hsel] using fun _ => hbit
  | _ => simp [unusedBitsZero, zeroSel, zeroImm, hsel, himm]

/-- Every row's mask covers the opcode and its format's zero bits, and its value is the opcode alone
(30_encoding.md R84). -/
theorem opcodeTable_row_shape : ∀ r ∈ opcodeTable,
    r.mask = packWord 0xFF r.format.zeroSel r.format.zeroImm ∧
      r.value = packWord (opcodeField r.value) 0 0 := by decide

/-- An opcode names at most one row (30_encoding.md R84). -/
theorem opcodeTable_eq_of_opcode : ∀ r ∈ opcodeTable, ∀ q ∈ opcodeTable,
    opcodeField r.value = opcodeField q.value → r = q := by decide

/-- A mnemonic names at most one row (30_encoding.md R84). -/
theorem opcodeTable_eq_of_mnemonic : ∀ r ∈ opcodeTable, ∀ q ∈ opcodeTable,
    r.mnemonic = q.mnemonic → r = q := by decide

/-- A word matches a row iff it has the row's opcode and keeps the zero bits of the row's format
(30_encoding.md R82, R84). -/
theorem row_match_iff {r : OpcodeRow} (hr : r ∈ opcodeTable) (w : Word) :
    w &&& r.mask = r.value ↔
      opcodeField w = opcodeField r.value ∧ r.format.unusedBitsZero w = true := by
  obtain ⟨hmask, hvalue⟩ := opcodeTable_row_shape r hr
  have hop : opcodeField w &&& 0xFF = opcodeField w := BitVec.and_allOnes
  have hand : w &&& r.mask =
      packWord (opcodeField w) (selField w &&& r.format.zeroSel) (immField w &&& r.format.zeroImm) := by
    rw [hmask]
    nth_rw 1 [← packWord_fields w]
    rw [packWord_and, hop]
  rw [Format.unusedBitsZero_iff, hand]
  constructor
  · intro h
    rw [hvalue] at h
    exact ⟨by simpa using congrArg opcodeField h, by simpa using congrArg selField h,
      by simpa using congrArg immField h⟩
  · rintro ⟨h1, h2, h3⟩
    rw [h1, h2, h3, ← hvalue]

/-- A word of no row's opcode is rejected (30_encoding.md R86 (a)). -/
theorem decode_of_unassigned {w : Word} (h : ∀ r ∈ opcodeTable, opcodeField w ≠ opcodeField r.value) :
    decode w = .error (.unassignedOpcode (opcodeField w)) := by
  have hne : ∀ op ∈ opcodeTable.map (fun r => opcodeField r.value), opcodeField w ≠ op := by
    simpa using h
  have hops : opcodeTable.map (fun r => opcodeField r.value) =
    [0x00#8, 0x01#8, 0x02#8, 0x03#8, 0x10#8, 0x11#8, 0x12#8, 0x20#8, 0x21#8, 0x22#8, 0x23#8, 0x24#8] := by
    decide
  rw [hops] at hne
  simp only [List.forall_mem_cons] at hne
  obtain ⟨h0, h1, h2, h3, h4, h5, h6, h7, h8, h9, h10, h11, _⟩ := hne
  simp only [decode, h0, h1, h2, h3, h4, h5, h6, h7, h8, h9, h10, h11, if_false]

/-- A word of a row's opcode is accepted under the row's format, as an operation of the row's mnemonic
(30_encoding.md R84, R86 (b)). -/
theorem decode_of_opcode {r : OpcodeRow} (hr : r ∈ opcodeTable) {w : Word}
    (h : opcodeField w = opcodeField r.value) :
    ∃ i, i.mnemonic = r.mnemonic ∧ decode w = acceptFormat r.format w i := by
  simp only [opcodeTable, List.mem_cons, List.not_mem_nil, or_false] at hr
  rcases hr with rfl | rfl | rfl | rfl | rfl | rfl | rfl | rfl | rfl | rfl | rfl | rfl
  all_goals
    simp only [decode, h]
    exact ⟨_, rfl, rfl⟩

/-- A word that matches a row decodes to an operation of the row's mnemonic (30_encoding.md R84). -/
theorem decode_of_match {r : OpcodeRow} (hr : r ∈ opcodeTable) {w : Word} (h : w &&& r.mask = r.value) :
    ∃ i, decode w = .ok i ∧ i.mnemonic = r.mnemonic := by
  obtain ⟨hop, hzero⟩ := (row_match_iff hr w).1 h
  obtain ⟨i, hi, hd⟩ := decode_of_opcode hr hop
  exact ⟨i, by rw [hd, acceptFormat, if_pos hzero], hi⟩

/-- A word that decodes matches the row of its operation's mnemonic (30_encoding.md R84). -/
theorem match_of_decode {w : Word} {i : Instr} (h : decode w = .ok i) :
    ∃ r ∈ opcodeTable, r.mnemonic = i.mnemonic ∧ w &&& r.mask = r.value := by
  by_cases hop : ∃ r ∈ opcodeTable, opcodeField w = opcodeField r.value
  · obtain ⟨r, hr, hop⟩ := hop
    obtain ⟨j, hj, hd⟩ := decode_of_opcode hr hop
    obtain ⟨hzero, rfl⟩ := acceptFormat_ok (hd ▸ h)
    exact ⟨r, hr, hj.symm, (row_match_iff hr w).2 ⟨hop, hzero⟩⟩
  · push Not at hop
    rw [decode_of_unassigned hop] at h
    cases h

/-- A word is rejected iff it matches no row (30_encoding.md R84, R86). -/
theorem no_match_iff_decode_error (w : Word) :
    (∀ r ∈ opcodeTable, w &&& r.mask ≠ r.value) ↔ ∃ e, decode w = .error e := by
  constructor
  · intro hnone
    cases hd : decode w with
    | error e => exact ⟨e, rfl⟩
    | ok i =>
      obtain ⟨r, hr, _, hm⟩ := match_of_decode hd
      exact absurd hm (hnone r hr)
  · rintro ⟨e, he⟩ r hr hm
    obtain ⟨i, hi, _⟩ := decode_of_match hr hm
    rw [he] at hi
    cases hi

/-- Settles O3: a row is its opcode and its format's zero bits, and opcodes and mnemonics each name one row. -/
theorem decodeFollowsTheOpcodeMap : Obligations.DecodeFollowsTheOpcodeMap := by
  refine ⟨?_, ?_, no_match_iff_decode_error⟩
  · intro w r hr q hq hwr hwq
    have hopr := ((row_match_iff hr w).1 hwr).1
    have hopq := ((row_match_iff hq w).1 hwq).1
    exact opcodeTable_eq_of_opcode r hr q hq (hopr.symm.trans hopq)
  · intro w r hr
    constructor
    · exact decode_of_match hr
    · rintro ⟨i, hd, hi⟩
      obtain ⟨q, hq, hqi, hm⟩ := match_of_decode hd
      obtain rfl := opcodeTable_eq_of_mnemonic q hq r hr (hqi.trans hi)
      exact hm

/-- Settles O4, row by row of the decoder, from the fields of the word as numbers. -/
theorem operandsAreReadFromTheWord : Obligations.OperandsAreReadFromTheWord := by
  intro w i h
  rcases decode_cases h with ⟨_, _, rfl⟩ | ⟨_, _, rfl⟩ | ⟨_, _, rfl⟩ | ⟨_, _, rfl⟩ | ⟨_, _, rfl⟩ |
    ⟨_, _, rfl⟩ | ⟨_, _, rfl⟩ | ⟨_, _, rfl⟩ | ⟨_, _, rfl⟩ | ⟨_, _, rfl⟩ | ⟨_, _, rfl⟩ | ⟨_, _, rfl⟩
  · trivial
  · exact selField_toNat w
  · exact ⟨selField_toNat w, immField_toNat w⟩
  · trivial
  · exact immField_toInt w
  · trivial
  · trivial
  · exact immBit_toNat w
  · exact immByte_toNat w
  · exact immField_toNat w
  · exact countField_toNat w
  · trivial

end Sys2Proof

namespace Sys2Proof.Machine

/-! ### Illegal words (30_encoding.md R86) -/

/-- The effect of an illegal word in the words of 60_exceptions.md R181. -/
theorem execIllegal_eq_faulted (w : Word) (s : State) :
    execIllegal w s = faulted .illOp 1 (w.extractLsb' 16 16) s := by
  rw [execIllegal, raiseFault_eq]
  rfl

/-- A word that matches no row runs as an illegal word (30_encoding.md R86). -/
theorem runWord_of_no_match {w : Word} (h : ∀ r ∈ opcodeTable, w &&& r.mask ≠ r.value) (s : State) :
    runWord w s = faulted .illOp 1 (w.extractLsb' 16 16) s := by
  obtain ⟨e, he⟩ := (no_match_iff_decode_error w).1 h
  rw [runWord, he]
  exact execIllegal_eq_faulted w s

/-- The assigned opcodes lie in 0x00..0x03, 0x10..0x12 and 0x20..0x24 (30_encoding.md R84). -/
theorem opcodeTable_opcode_range : ∀ r ∈ opcodeTable,
    (opcodeField r.value).toNat ≤ 0x03 ∨
      (0x10 ≤ (opcodeField r.value).toNat ∧ (opcodeField r.value).toNat ≤ 0x12) ∨
      (0x20 ≤ (opcodeField r.value).toNat ∧ (opcodeField r.value).toNat ≤ 0x24) := by decide

/-- Settles O7: both kinds of illegal word match no row, by the opcode a match would need. -/
theorem illegalWordRaisesIllop : Obligations.IllegalWordRaisesIllop := by
  refine ⟨fun s w h => runWord_of_no_match h s, ?_, ?_⟩
  · intro s w hop
    refine runWord_of_no_match (fun r hr hm => ?_) s
    have heq := ((row_match_iff hr w).1 hm).1
    have hrange := opcodeTable_opcode_range r hr
    rw [← heq, opcodeField_toNat] at hrange
    omega
  · intro s w r hr hop hne
    refine runWord_of_no_match (fun q hq hm => ?_) s
    have hqw := ((row_match_iff hq w).1 hm).1
    have hrw : opcodeField w = opcodeField r.value :=
      BitVec.eq_of_toNat_eq (by rw [opcodeField_toNat, opcodeField_toNat, hop])
    obtain rfl := opcodeTable_eq_of_opcode q hq r hr (hqw.symm.trans hrw)
    exact hne hm

/-! ### Responses (30_encoding.md R90) -/

/-- An operation that neither faults nor reads a register answers `OK(0)`, once (30_encoding.md R90). -/
theorem exec_answers_zero {i : Instr} {s : State} (hf : opFaults s.cfg i = false)
    (hr : ∀ sel, i ≠ .rdr sel) :
    ∃ t, exec i s = .next (respond (.ok 0) t) ∧ t.responses = s.responses := by
  cases i with
  | rdr sel => exact absurd rfl (hr sel)
  | wrr sel v =>
    cases hreg : regOf s.cfg sel with
    | none => simp [opFaults, hreg] at hf
    | some r =>
      have hw : readOnly r = false := by simpa [opFaults, hreg] using hf
      exact ⟨regWrite r v s, execWrr_writable v hreg hw, rfl⟩
  | dsamp x => exact ⟨_, rfl, by simp⟩
  | desync =>
    refine ⟨_, rfl, ?_⟩
    split <;> rfl
  | _ => exact ⟨_, rfl, rfl⟩

/-- The response word of `OK(d)` is `d` (30_encoding.md R90). -/
theorem responseWord_ok_toNat (d : Half) : (responseWord (.ok d)).toNat = d.toNat := by
  rw [responseWord]
  exact (BitVec.toNat_append 0#16 d).trans (by simp)

/-- Settles O11: a fault answers `ERR`, a read of a mapped selector its register, all else `OK(0)`. -/
theorem everyOperationRespondsOnce : Obligations.EveryOperationRespondsOnce := by
  refine ⟨?_, responseWord_ok_toNat, by decide, by decide, by decide⟩
  intro i s
  cases hf : opFaults s.cfg i with
  | true =>
    obtain ⟨code, _, he⟩ := exec_of_faults hf
    exact ⟨_, .err code, he, raiseFault_responses code _ s, code, rfl⟩
  | false =>
    cases i with
    | rdr sel =>
      cases hreg : regOf s.cfg sel with
      | none => simp [opFaults, hreg] at hf
      | some g => exact ⟨_, _, execRdr_mapped hreg, rfl, g, hreg, rfl⟩
    | _ =>
      obtain ⟨t, he, ht⟩ := exec_answers_zero hf (by simp)
      exact ⟨_, .ok 0, he, by rw [respond_responses, ht], rfl⟩

end Sys2Proof.Machine
end

section
/-! SUPPORT. The system operations (40_system_ops.md R100 to R105): their words, the registers as numbers, what the
register port reads and writes at each register, and the faults of `RDR` and `WRR`. -/

namespace Sys2Proof

/-! ### The words of the system operations -/

/-- A word with a row's opcode that sets a bit the row's format requires to be 0 is rejected
(30_encoding.md R86 (b)). -/
theorem decode_error_of_unusedBit {r : OpcodeRow} (hr : r ∈ opcodeTable) {w : Word}
    (hop : opcodeField w = opcodeField r.value) (hbit : r.format.unusedBitsZero w = false) :
    ∃ e, decode w = .error e := by
  obtain ⟨i, _, hd⟩ := decode_of_opcode hr hop
  exact ⟨.unusedBitSet (opcodeField w), by rw [hd, acceptFormat, hbit]; rfl⟩

/-- Format `Z` leaves one word per opcode (30_encoding.md R82). -/
theorem eq_packWord_of_formatZ {w : Word} (h : Format.Z.unusedBitsZero w = true) :
    w = packWord (opcodeField w) 0 0 := by
  simp only [Format.unusedBitsZero, Bool.and_eq_true, beq_iff_eq] at h
  obtain ⟨hsel, himm⟩ := h
  rw [← hsel, ← himm, packWord_fields]

/-- Any word with opcode 0x00 but the word 0 is rejected (40_system_ops.md R100). -/
theorem decode_nopOpcode_error {w : Word} (hop : w.toNat / 16777216 = 0) (hw : w ≠ 0) :
    ∃ e, decode w = .error e := by
  have hop0 : opcodeField w = 0 := BitVec.eq_of_toNat_eq (by rw [opcodeField_toNat, hop]; rfl)
  refine decode_error_of_unusedBit (r := ⟨.nop, .Z, 0xFFFFFFFF#32, 0x00000000#32⟩) (by decide) hop0 ?_
  refine Bool.eq_false_iff.2 fun hzero => hw ?_
  rw [eq_packWord_of_formatZ hzero, hop0]
  rfl

/-- A word with opcode 0x01 and a non-zero immediate is rejected, whatever its selector
(40_system_ops.md R101). -/
theorem decode_rdrOpcode_error {w : Word} (hop : w.toNat / 16777216 = 1) (himm : w.toNat % 65536 ≠ 0) :
    ∃ e, decode w = .error e := by
  have hop1 : opcodeField w = 1 := BitVec.eq_of_toNat_eq (by rw [opcodeField_toNat, hop]; rfl)
  refine decode_error_of_unusedBit (r := ⟨.rdr, .R, 0xFF00FFFF#32, 0x01000000#32⟩) (by decide) hop1 ?_
  refine beq_eq_false_iff_ne.2 fun hzero => himm ?_
  rw [← immField_toNat, hzero]
  rfl

theorem decode_packWord_rdr (sel : Byte) : decode (packWord 0x01 sel 0x0000) = .ok (.rdr sel) := by
  simp [decode, acceptFormat, Format.unusedBitsZero]

theorem decode_packWord_wrr (sel : Byte) (v : Half) : decode (packWord 0x02 sel v) = .ok (.wrr sel v) := by
  simp [decode, acceptFormat, Format.unusedBitsZero]

/-! ### Parts of a pattern as numbers -/

/-- A field of `n` bits from bit `k` up, as division and remainder. -/
theorem extractLsb'_eq_ofNat {w : Nat} (x : BitVec w) (k n : Nat) :
    x.extractLsb' k n = BitVec.ofNat n (x.toNat / 2 ^ k % 2 ^ n) := by
  refine BitVec.eq_of_toNat_eq ?_
  rw [BitVec.extractLsb'_toNat, Nat.shiftRight_eq_div_pow, BitVec.toNat_ofNat, Nat.mod_mod]

/-- Bit `k` of a pattern, as division and remainder. -/
theorem getLsbD_eq_div_mod {w : Nat} (x : BitVec w) (k : Nat) :
    x.getLsbD k = (x.toNat / 2 ^ k % 2 == 1) :=
  Nat.testBit_eq_decide_div_mod_eq

/-- The high half of a word as a number (10_state.md R36, R37); `immField_toNat` is the low half. -/
theorem highHalf_toNat (w : Word) : (highHalf w).toNat = w.toNat / 65536 := by
  have h := w.isLt
  rw [highHalf, BitVec.extractLsb'_toNat, Nat.shiftRight_eq_div_pow]
  omega

/-- Two halves make a word: the high one counts 65536 (10_state.md R37). -/
theorem halves_eq_ofNat (hi lo : Half) : hi ++ lo = BitVec.ofNat 32 (hi.toNat * 65536 + lo.toNat) := by
  have hhi := hi.isLt
  have hlo := lo.isLt
  refine BitVec.eq_of_toNat_eq ?_
  rw [BitVec.toNat_append, ← Nat.shiftLeft_add_eq_or_of_lt hlo, Nat.shiftLeft_eq, BitVec.toNat_ofNat]
  omega

theorem Cfg.corrlen_le_of_wf {c : Cfg} (h : c.wf = true) : c.corrlen ≤ 192 := by
  obtain ⟨_, hle, _⟩ := Cfg.wf_demod h
  exact hle

end Sys2Proof

namespace Sys2Proof.Machine

/-! ### What each register reads as (40_system_ops.md R101) -/

theorem bitNat_eq_toNat (b : Bool) : bitNat b = b.toNat := by cases b <;> rfl

/-- `u16` is the remainder by 65536 (00_scope.md R13). -/
theorem u16_eq_ofNat (v : Int) : u16 v = BitVec.ofNat 16 (v % 65536).toNat := by
  refine BitVec.eq_of_toNat_eq ?_
  rw [u16, BitVec.toNat_ofInt, BitVec.toNat_ofNat]
  omega

theorem regRead_ctrl_eq (s : State) : regRead .ctrl s = BitVec.ofNat 16 s.demod.hold.toNat := by
  rw [regRead, bitNat_eq_toNat]

theorem regRead_evt_eq (s : State) : regRead .evt s = BitVec.ofNat 16 s.evt.toNat :=
  (BitVec.ofNat_toNat 16 s.evt).symm

theorem regRead_ien_eq (s : State) : regRead .ien s = BitVec.ofNat 16 s.ien.toNat :=
  (BitVec.ofNat_toNat 16 s.ien).symm

theorem regRead_errcode_eq (s : State) : regRead .errcode s = BitVec.ofNat 16 s.errcode.toNat :=
  (BitVec.ofNat_toNat 16 s.errcode).symm

theorem regRead_dint_eq (s : State) : regRead .dint s = BitVec.ofNat 16 (s.demod.int % 65536).toNat :=
  u16_eq_ofNat s.demod.int

theorem regRead_dsr_eq (s : State) : regRead .dsr s = BitVec.ofNat 16 s.demod.sr.toNat :=
  (BitVec.ofNat_toNat 16 s.demod.sr).symm

theorem regRead_dflg_eq (s : State) : regRead .dflg s =
    BitVec.ofNat 16 (s.demod.synced.toNat + 2 * s.demod.cprev.toNat + 16 * s.demod.bitcnt.toNat) := by
  rw [regRead, dflgOf, bitNat_eq_toNat, bitNat_eq_toNat]

theorem regRead_mphl_eq (s : State) : regRead .mphl s = BitVec.ofNat 16 (s.mph.toNat % 65536) := by
  rw [← immField_toNat, BitVec.ofNat_toNat, BitVec.setWidth_eq]
  rfl

theorem regRead_mphh_eq (s : State) : regRead .mphh s = BitVec.ofNat 16 (s.mph.toNat / 65536) := by
  rw [← highHalf_toNat, BitVec.ofNat_toNat, BitVec.setWidth_eq]
  rfl

theorem regRead_dl_eq {s : State} {i : Nat} {x : Half} (h : s.demod.dl[i]? = some x) :
    regRead (.dl i) s = x := by
  rw [regRead, List.getD_eq_getElem?_getD, h, Option.getD_some]

/-! ### What a write does at each register (40_system_ops.md R102) -/

theorem regWrite_ctrl_eq (v : Half) (s : State) :
    regWrite .ctrl v s = { s with demod := { s.demod with hold := v.toNat % 2 == 1 } } := by
  have hbit : v.getLsbD 0 = (v.toNat % 2 == 1) := by simpa using getLsbD_eq_div_mod v 0
  rw [← hbit]
  rfl

theorem regWrite_ien_eq (v : Half) (s : State) :
    regWrite .ien v s = { s with ien := BitVec.ofNat 4 (v.toNat % 16) } := by
  have hlow : v.extractLsb' 0 4 = BitVec.ofNat 4 (v.toNat % 16) := by simpa using extractLsb'_eq_ofNat v 0 4
  rw [← hlow]
  rfl

theorem regWrite_dsr_eq (v : Half) (s : State) :
    regWrite .dsr v s = { s with demod := { s.demod with sr := BitVec.ofNat 8 (v.toNat % 256) } } := by
  have hlow : v.extractLsb' 0 8 = BitVec.ofNat 8 (v.toNat % 256) := by simpa using extractLsb'_eq_ofNat v 0 8
  rw [← hlow]
  rfl

theorem regWrite_dflg_eq (v : Half) (s : State) :
    regWrite .dflg v s =
      { s with
        demod :=
          { s.demod with
            synced := v.toNat % 2 == 1
            cprev := v.toNat / 2 % 2 == 1
            bitcnt := BitVec.ofNat 3 (v.toNat / 16 % 8) } } := by
  have hsynced : v.getLsbD 0 = (v.toNat % 2 == 1) := by simpa using getLsbD_eq_div_mod v 0
  have hcprev : v.getLsbD 1 = (v.toNat / 2 % 2 == 1) := getLsbD_eq_div_mod v 1
  have hbitcnt : v.extractLsb' 4 3 = BitVec.ofNat 3 (v.toNat / 16 % 8) := extractLsb'_eq_ofNat v 4 3
  rw [← hsynced, ← hcprev, ← hbitcnt]
  rfl

theorem regWrite_mphl_eq (v : Half) (s : State) :
    regWrite .mphl v s = { s with mph := BitVec.ofNat 32 (s.mph.toNat / 65536 * 65536 + v.toNat) } := by
  rw [← highHalf_toNat, ← halves_eq_ofNat]
  rfl

theorem regWrite_mphh_eq (v : Half) (s : State) :
    regWrite .mphh v s = { s with mph := BitVec.ofNat 32 (v.toNat * 65536 + s.mph.toNat % 65536) } := by
  rw [← immField_toNat, ← halves_eq_ofNat]
  rfl

/-! ### The register port by selector -/

/-- `RDR` of a mapped selector responds with the register and changes nothing (40_system_ops.md R101). -/
theorem exec_rdr_eq_answered {s : State} {sel : Byte} {r : Reg} {d : Half} (h : regOf s.cfg sel = some r)
    (hd : regRead r s = d) : exec (.rdr sel) s = answered d s := by
  rw [exec_rdr, execRdr_mapped h, hd]
  rfl

/-- `WRR` of a writable register writes it and responds `OK(0)` (40_system_ops.md R102). -/
theorem exec_wrr_eq_of_regWrite {s t : State} {sel : Byte} {r : Reg} {v : Half} (h : regOf s.cfg sel = some r)
    (hr : readOnly r = false) (ht : regWrite r v s = t) :
    exec (.wrr sel v) s = .next { t with responses := t.responses ++ [.ok 0] } := by
  rw [exec_wrr, execWrr_writable v h hr, ht]
  rfl

/-- A fault of the operation whose word has the given fields, in the words of 60_exceptions.md R181. -/
theorem raiseFault_packWord_eq_faulted (code : FaultCode) (op sel : Byte) (imm : Half) (s : State) :
    .next (raiseFault code (packWord op sel imm) s) = faulted code (faultNumber code) (op ++ sel) s := by
  rw [raiseFault_eq, highHalf_packWord]
  rfl

theorem exec_rdr_unmapped {s : State} {sel : Byte} (h : regOf s.cfg sel = none) :
    exec (.rdr sel) s = faulted .badSel 2 (0x01#8 ++ sel) s :=
  (execRdr_unmapped h).trans (raiseFault_packWord_eq_faulted .badSel 0x01 sel 0 s)

theorem exec_wrr_unmapped {s : State} {sel : Byte} (v : Half) (h : regOf s.cfg sel = none) :
    exec (.wrr sel v) s = faulted .badSel 2 (0x02#8 ++ sel) s :=
  (execWrr_unmapped v h).trans (raiseFault_packWord_eq_faulted .badSel 0x02 sel v s)

theorem exec_wrr_readOnly {s : State} {sel : Byte} {r : Reg} (v : Half) (h : regOf s.cfg sel = some r)
    (hr : readOnly r = true) : exec (.wrr sel v) s = faulted .roWrite 3 (0x02#8 ++ sel) s :=
  (execWrr_readOnly v h hr).trans (raiseFault_packWord_eq_faulted .roWrite 0x02 sel v s)

/-! ### The statements -/

/-- Settles O18, register by register: the selector map names the register, `regRead` its pattern. -/
theorem rdrReadsEverySelector : Obligations.RdrReadsEverySelector := by
  refine ⟨fun s hinv => ?_, fun w hop himm => decode_rdrOpcode_error hop himm, decode_packWord_rdr⟩
  obtain ⟨hwf, ⟨_, _, _, hlen⟩, _⟩ := hinv
  have hcorr := Cfg.corrlen_le_of_wf hwf
  refine ⟨exec_rdr_eq_answered (regOf_ctrl _) (regRead_ctrl_eq s),
    exec_rdr_eq_answered (regOf_evt _) (regRead_evt_eq s),
    exec_rdr_eq_answered (regOf_ien _) (regRead_ien_eq s),
    exec_rdr_eq_answered (regOf_errcode _) (regRead_errcode_eq s),
    exec_rdr_eq_answered (regOf_errinfo _) rfl,
    exec_rdr_eq_answered (regOf_dph _) rfl,
    exec_rdr_eq_answered (regOf_dint _) (regRead_dint_eq s),
    exec_rdr_eq_answered (regOf_dsr _) (regRead_dsr_eq s),
    exec_rdr_eq_answered (regOf_dflg _) (regRead_dflg_eq s),
    exec_rdr_eq_answered (regOf_dsub _) rfl,
    exec_rdr_eq_answered (regOf_dtph _) rfl,
    exec_rdr_eq_answered (regOf_mphl _) (regRead_mphl_eq s),
    exec_rdr_eq_answered (regOf_mphh _) (regRead_mphh_eq s), ?_, ?_⟩
  · intro i x hx
    obtain ⟨hi, _⟩ := List.getElem?_eq_some_iff.1 hx
    exact exec_rdr_eq_answered (regOf_selectorOf_dl hcorr (hlen ▸ hi)) (regRead_dl_eq hx)
  · exact fun sel hsel => exec_rdr_unmapped (regOf_unmapped hcorr hsel)

/-- Settles O19, register by register: the selector map names the register, `regWrite` its effect. -/
theorem wrrWritesEverySelector : Obligations.WrrWritesEverySelector := by
  refine ⟨fun s v hinv => ?_, decode_packWord_wrr⟩
  obtain ⟨hwf, _, _⟩ := hinv
  have hcorr := Cfg.corrlen_le_of_wf hwf
  exact ⟨exec_wrr_eq_of_regWrite (regOf_ctrl _) rfl (regWrite_ctrl_eq v s),
    ⟨evtCleared s.evt v, exec_wrr_eq_of_regWrite (regOf_evt _) rfl rfl, evtCleared_getLsbD s.evt v⟩,
    exec_wrr_eq_of_regWrite (regOf_ien _) rfl (regWrite_ien_eq v s),
    exec_wrr_readOnly v (regOf_errcode _) rfl,
    exec_wrr_readOnly v (regOf_errinfo _) rfl,
    exec_wrr_eq_of_regWrite (regOf_dph _) rfl rfl,
    exec_wrr_eq_of_regWrite (regOf_dint _) rfl rfl,
    exec_wrr_eq_of_regWrite (regOf_dsr _) rfl (regWrite_dsr_eq v s),
    exec_wrr_eq_of_regWrite (regOf_dflg _) rfl (regWrite_dflg_eq v s),
    exec_wrr_eq_of_regWrite (regOf_dsub _) rfl rfl,
    exec_wrr_eq_of_regWrite (regOf_dtph _) rfl rfl,
    exec_wrr_eq_of_regWrite (regOf_mphl _) rfl (regWrite_mphl_eq v s),
    exec_wrr_eq_of_regWrite (regOf_mphh _) rfl (regWrite_mphh_eq v s),
    fun i hi => exec_wrr_eq_of_regWrite (regOf_selectorOf_dl hcorr hi) rfl rfl,
    fun sel hsel => exec_wrr_unmapped v (regOf_unmapped hcorr hsel)⟩

/-- Settles O12: the model's reset registers are the literals of the statement. -/
theorem rstZeroesEveryRegister : Obligations.RstZeroesEveryRegister :=
  ⟨fun s => exec_rst s, by decide⟩

/-- Settles O15: the model's cleared context is the literals of the statement. -/
theorem drstResetsTheContextOnly : Obligations.DrstResetsTheContextOnly :=
  ⟨fun s => exec_drst s, by decide⟩

/-- `MSIL 0` emits no sample, so it is `MRST` (40_system_ops.md R105, 42_modulator.md R164). -/
theorem execMsil_zero (s : State) : execMsil 0 s = execMrst s := by
  rw [execMsil, execMrst, List.replicate_zero, emitSamples, List.append_nil]

/-- Settles O16: `MRST` by its definition, `MSIL 0` because it emits the empty list of samples. -/
theorem mrstZeroesThePhase : Obligations.MrstZeroesThePhase :=
  ⟨fun s => ⟨exec_mrst s, execMsil_zero s⟩, by decide⟩

/-- Settles O17: the word 0 is the only word of opcode 0 that keeps the zero bits of format `Z`. -/
theorem nopOnlyResponds : Obligations.NopOnlyResponds :=
  ⟨fun s => exec_nop s, by decide, fun _ hop hw => decode_nopOpcode_error hop hw⟩

end Sys2Proof.Machine
end

section
/-! SUPPORT. The demodulator's `DSAMP` (41_demodulator.md R121 to R138): the delay line and the correlation entry by
entry, the parts of a correlation step as arithmetic, the whole effect of `DSAMP`, and what a run with other operations
between the samples keeps. -/

namespace Sys2Proof.Machine

/-! ### The delay line (41_demodulator.md R121) -/

theorem shiftIn_getElem?_zero (x : Half) {dl : List Half} (h : 0 < dl.length) : (shiftIn x dl)[0]? = some x := by
  simp [shiftIn, h]

theorem shiftIn_getElem?_succ (x : Half) {dl : List Half} {i : Nat} (h : i + 1 < dl.length) :
    (shiftIn x dl)[i + 1]? = dl[i]? := by
  simp [shiftIn, h]

/-! ### The correlation value (41_demodulator.md R123) -/

/-- The model's recursive sum of products is the sum over the indices. -/
theorem dot_eq_sum {n : Nat} {win : List Half} {tm : List Int} (hw : win.length = n) (ht : tm.length = n) :
    dot win tm = ((List.range n).map (fun k => (win.getD k 0).toInt * tm.getD k 0)).sum := by
  induction n generalizing win tm with
  | zero =>
    rw [List.length_eq_zero_iff] at hw ht
    subst hw ht
    rfl
  | succ n ih =>
    obtain ⟨x, xs, rfl⟩ := List.exists_cons_of_length_eq_add_one hw
    obtain ⟨t, ts, rfl⟩ := List.exists_cons_of_length_eq_add_one ht
    rw [dot, ih (Nat.succ.inj hw) (Nat.succ.inj ht), List.range_succ_eq_map]
    simp [Function.comp_def]

/-- A window's sum of products reads the delay line from its oldest entry. -/
theorem dot_window_eq_sum {n : Nat} {dl : List Half} {tm : List Int} (hd : dl.length = n) (ht : tm.length = n) :
    dot (window dl) tm =
      ((List.range n).map (fun k => (dl.getD (n - 1 - k) 0).toInt * tm.getD k 0)).sum := by
  rw [window, dot_eq_sum (List.length_reverse.trans hd) ht]
  refine congrArg List.sum (List.map_congr_left fun k hk => ?_)
  rw [List.getD_reverse k (hd ▸ List.mem_range.1 hk), hd]

/-! ### The parts of a correlation step as arithmetic (41_demodulator.md R128 to R132) -/

/-- The nudge with its shift written as a division (41_demodulator.md R128). -/
theorem nudge_eq (c : Cfg) (ph : Nat) :
    nudge c ph =
      if ph < 32768 then ph - min (ph / 2 ^ c.dllShift) c.dllMax
      else ph + min ((65536 - ph) / 2 ^ c.dllShift) c.dllMax := by
  rw [nudge, Nat.shiftRight_eq_div_pow, Nat.shiftRight_eq_div_pow]

theorem nudgedPhase_eq (c : Cfg) (f : Int) (d : Demod) :
    nudgedPhase c f d =
      if candidate f d.cprev = d.cprev then d.ph.toNat
      else if d.ph.toNat < 32768 then d.ph.toNat - min (d.ph.toNat / 2 ^ c.dllShift) c.dllMax
      else d.ph.toNat + min ((65536 - d.ph.toNat) / 2 ^ c.dllShift) c.dllMax := by
  rw [nudgedPhase, nudge_eq]

/-- With a shift of 1 or more the nudge covers at most half of the way to the wrap. -/
theorem nudge_lt {c : Cfg} (hs : 1 ≤ c.dllShift) {ph : Nat} (h : ph < 65536) : nudge c ph < 65536 := by
  rw [nudge_eq]
  split
  · exact (Nat.sub_le _ _).trans_lt h
  · have hhalf : (65536 - ph) / 2 ^ c.dllShift ≤ (65536 - ph) / 2 ^ 1 :=
      Nat.div_le_div_left (Nat.pow_le_pow_right (by decide) hs) (by decide)
    omega

theorem nudgedPhase_lt {c : Cfg} (hs : 1 ≤ c.dllShift) (f : Int) (d : Demod) : nudgedPhase c f d < 65536 := by
  rw [nudgedPhase]
  split
  · exact d.ph.isLt
  · exact nudge_lt hs d.ph.isLt

/-- With a shift of 0 a late transition that the bound admits is nudged all the way to the wrap. -/
theorem nudge_eq_wrap {c : Cfg} (hs : c.dllShift = 0) {ph : Nat} (hlate : 32768 ≤ ph) (hlt : ph < 65536)
    (hmax : 65536 - ph ≤ c.dllMax) : nudge c ph = 65536 := by
  rw [nudge_eq, if_neg (by omega), hs, Nat.pow_zero, Nat.div_one]
  omega

/-- The phase register after the advance, as a number: a sum of 65536 or more keeps its remainder
(41_demodulator.md R129). -/
theorem trackPhase_ph_toNat {c : Cfg} (hinc : c.phinc < 65536) (f : Int) (d : Demod) :
    (trackPhase c f d).ph.toNat =
      if 65536 ≤ nudgedPhase c f d + c.phinc then nudgedPhase c f d + c.phinc - 65536
      else nudgedPhase c f d + c.phinc := by
  have hle := nudgedPhase_le c f d
  rw [trackPhase_ph, BitVec.toNat_ofNat]
  split <;> omega

/-- A 16-bit pattern drops one 65536. -/
theorem ofNat_sub_wrap {n : Nat} (h : 65536 ≤ n) : BitVec.ofNat 16 (n - 65536) = BitVec.ofNat 16 n := by
  apply BitVec.eq_of_toNat_eq
  simp only [BitVec.toNat_ofNat]
  omega

/-- The integrator after a latch, where halving halves the magnitude (41_demodulator.md R131). -/
theorem afterLatch_eq (c : Cfg) (int : Int) :
    afterLatch c int =
      match c.intReset with
      | .clear => 0
      | .halve => Int.sign int * (int.natAbs / 2 : Nat) := by
  unfold afterLatch
  cases c.intReset with
  | clear => rfl
  | halve =>
    cases int with
    | ofNat n =>
      cases n with
      | zero => rfl
      | succ n => exact (Int.one_mul _).symm
    | negSucc n => exact Int.neg_eq_neg_one_mul _

/-- The shift register after a latch, as a number (41_demodulator.md R132). -/
theorem shiftBit_eq_ofNat (b : Bool) (sr : Byte) :
    shiftBit b sr = BitVec.ofNat 8 ((if b = true then 128 else 0) + sr.toNat / 2) := by
  have hsr := sr.isLt
  have hlow : (sr.extractLsb' 1 7).toNat = sr.toNat / 2 := by
    rw [BitVec.extractLsb'_toNat, Nat.shiftRight_eq_div_pow]
    omega
  apply BitVec.eq_of_toNat_eq
  rw [shiftBit, BitVec.toNat_append, ← Nat.shiftLeft_add_eq_or_of_lt (BitVec.isLt _), hlow, BitVec.toNat_ofNat]
  cases b
  · simp
    omega
  · simp
    omega

theorem shiftBit_slice_eq_ofNat (int : Int) (sr : Byte) :
    shiftBit (slice int) sr = BitVec.ofNat 8 ((if int > 0 then 128 else 0) + sr.toNat / 2) := by
  simp only [shiftBit_eq_ofNat, slice, decide_eq_true_eq]

theorem matchTakesEffect_iff (c : Cfg) (d : Demod) :
    matchTakesEffect c d = true ↔ d.sr = c.syncByte ∧ (d.synced = false ∨ d.hold = false) := by
  simp [matchTakesEffect]

/-- The registers a latch leaves before the match: the integrator cleared or halved, the decided bit shifted in
(41_demodulator.md R130 to R132). -/
def latched (c : Cfg) (f : Int) (d : Demod) : Demod :=
  { trackPhase c f d with
    int := afterLatch c (vote c f d.int)
    sr := shiftBit (slice (vote c f d.int)) d.sr }

/-- The registers at a latch, each as arithmetic on the old ones (41_demodulator.md R125 to R132). -/
theorem latched_eq {c : Cfg} {f : Int} {d : Demod} (h : 65536 ≤ nudgedPhase c f d + c.phinc) :
    latched c f d =
      { d with
        cprev := candidate f d.cprev
        tph := if candidate f d.cprev = d.cprev then d.tph else d.ph
        ph := BitVec.ofNat 16 (nudgedPhase c f d + c.phinc - 65536)
        int :=
          match c.intReset with
          | .clear => 0
          | .halve => Int.sign (vote c f d.int) * ((vote c f d.int).natAbs / 2 : Nat)
        sr := BitVec.ofNat 8 ((if vote c f d.int > 0 then 128 else 0) + d.sr.toNat / 2) } := by
  rw [latched, trackPhase, afterLatch_eq, shiftBit_slice_eq_ofNat, ofNat_sub_wrap h]

/-- A correlation step that wraps ends with the match or the byte assembly (41_demodulator.md R129, R133). -/
theorem stepWith_of_wrap {c : Cfg} {f : Int} {d : Demod} (h : wraps c f d = true) :
    stepWith c f d = matchOrAssemble c (latched c f d) := by
  rw [stepWith, if_pos h]
  rfl

/-! ### The whole effect of `DSAMP` -/

/-- The bits of `EVT` that a report sets (41_demodulator.md R133, R134). -/
def DemodReport.events : DemodReport → BitVec 4
  | .quiet => 0#4
  | .sync => 1#4
  | .byte _ => 2#4

/-- The bytes that a report emits (41_demodulator.md R134). -/
def DemodReport.bytes : DemodReport → List Byte
  | .byte b => [b]
  | _ => []

theorem applyReport_eq (r : DemodReport) (s : State) :
    applyReport r s = { s with evt := s.evt ||| r.events, byteOut := s.byteOut ++ r.bytes } := by
  cases r with
  | quiet => simp [DemodReport.events, DemodReport.bytes]
  | sync => simp [DemodReport.events, DemodReport.bytes, setEvent, evtWith, eventBit]
  | byte b => rfl

/-- `DSAMP` writes the context, ORs event bits, appends bytes and answers, all from the configuration, the context
and the sample (41_demodulator.md R120, R138). -/
theorem exec_dsamp_eq (x : Int) (s : State) :
    exec (.dsamp x) s = .next
      { s with
        demod := (demodSample s.cfg (u16 x) s.demod).1
        evt := s.evt ||| (demodSample s.cfg (u16 x) s.demod).2.events
        byteOut := s.byteOut ++ (demodSample s.cfg (u16 x) s.demod).2.bytes
        responses := s.responses ++ [.ok 0] } := by
  rw [exec_dsamp, execDsamp, applyReport_eq]
  rfl

/-- A sample that ends the stride is shifted in and followed by a correlation step (41_demodulator.md R122). -/
theorem demodSample_of_stride_end {c : Cfg} {d : Demod} (h : d.subcnt + 1 = c.subsamp) (x : Half) :
    demodSample c x d =
      stepWith c (correlation c (shiftIn x d.dl)) { d with dl := shiftIn x d.dl, subcnt := 0 } := by
  rw [demodSample, if_pos h]
  rfl

/-- The state after the match or the byte assembly on the context `d`: a match, a byte, a counted bit, or none of
them (41_demodulator.md R133, R134). -/
theorem respond_matchOrAssemble (s : State) (d : Demod) :
    respond (.ok 0)
        (applyReport (matchOrAssemble s.cfg d).2 { s with demod := (matchOrAssemble s.cfg d).1 }) =
      let ok : State := { s with responses := s.responses ++ [.ok 0] }
      if d.sr = s.cfg.syncByte ∧ (d.synced = false ∨ d.hold = false) then
        { ok with demod := { d with synced := true, bitcnt := 0 }, evt := s.evt ||| 1#4 }
      else if d.synced = true then
        if d.bitcnt = 7 then
          { ok with demod := { d with bitcnt := 0 }, byteOut := s.byteOut ++ [d.sr], evt := s.evt ||| 2#4 }
        else { ok with demod := { d with bitcnt := BitVec.ofNat 3 (d.bitcnt.toNat + 1) } }
      else { ok with demod := d } := by
  have hiff := matchTakesEffect_iff s.cfg d
  rcases matchOrAssemble_cases s.cfg d with ⟨hm, h⟩ | ⟨hm, hsy, h7, h⟩ | ⟨hm, hsy, h7, h⟩ | ⟨hm, hsy, h⟩
  · rw [h, if_pos (hiff.1 hm)]
    rfl
  · rw [h, if_neg (by simp [← hiff, hm]), if_pos hsy, if_pos h7]
    rfl
  · have hcount : d.bitcnt + 1 = BitVec.ofNat 3 (d.bitcnt.toNat + 1) := by bv_omega
    rw [h, if_neg (by simp [← hiff, hm]), if_pos hsy, if_neg h7, hcount]
    rfl
  · rw [h, if_neg (by simp [← hiff, hm]), if_neg (by simp [hsy])]
    rfl

/-! ### Operations between the samples (41_demodulator.md R138) -/

theorem execAll_cons {i : Instr} {s t : State} (h : exec i s = .next t) (l : List Instr) :
    execAll (i :: l) s = execAll l t := by
  rw [execAll, h]

/-- Every operation completes, in every state (60_exceptions.md R195). -/
theorem exec_completes (i : Instr) (s : State) : ∃ t, exec i s = .next t := by
  cases hf : opFaults s.cfg i with
  | true =>
    obtain ⟨code, _, h⟩ := exec_of_faults hf
    exact ⟨_, h⟩
  | false =>
    cases i with
    | rdr sel =>
      cases hreg : regOf s.cfg sel with
      | none => exact ⟨_, execRdr_unmapped hreg⟩
      | some r => exact ⟨_, execRdr_mapped hreg⟩
    | _ =>
      obtain ⟨t, h, _⟩ := exec_answers_zero hf (by simp)
      exact ⟨_, h⟩

/-- An operation other than `DSAMP` emits no byte and leaves the configuration alone (41_demodulator.md R138). -/
theorem exec_cfg_byteOut_of_not_dsamp {i : Instr} {s t : State} (hi : isDsamp i = false) (h : exec i s = .next t) :
    t.cfg = s.cfg ∧ t.byteOut = s.byteOut := by
  cases i with
  | dsamp x => cases hi
  | rdr sel =>
    rcases execRdr_cases h with ⟨_, rfl⟩ | ⟨_, _, rfl⟩
    · exact ⟨raiseFault_cfg .., raiseFault_byteOut ..⟩
    · exact ⟨rfl, rfl⟩
  | wrr sel v =>
    rcases execWrr_cases h with ⟨_, rfl⟩ | ⟨_, _, _, rfl⟩ | ⟨_, _, _, rfl⟩
    · exact ⟨raiseFault_cfg .., raiseFault_byteOut ..⟩
    · exact ⟨raiseFault_cfg .., raiseFault_byteOut ..⟩
    · exact ⟨rfl, rfl⟩
  | desync =>
    injection h with h
    subst h
    simp only [respond_cfg, respond_byteOut]
    split <;> exact ⟨rfl, rfl⟩
  | _ =>
    injection h with h
    subst h
    exact ⟨rfl, rfl⟩

/-- An operation that is none of the writers of the context leaves it alone (10_state.md R38). -/
theorem exec_demod_of_not_writesContext {i : Instr} {s t : State} (hi : writesContext s.cfg i = false)
    (h : exec i s = .next t) : t.demod = s.demod := by
  rcases exec_demod_cases h with hd | ⟨x, rfl, _⟩ | ⟨rfl | rfl, _⟩ | ⟨rfl, _⟩ | ⟨sel, v, r, rfl, hr, hc, _⟩
  · exact hd
  · cases hi
  · cases hi
  · cases hi
  · cases hi
  · simp [writesContext, hr, hc] at hi

/-- `DSAMP` from two states of equal configuration and context leaves equal contexts, sets the same events and emits
the same bytes (41_demodulator.md R138). -/
theorem exec_dsamp_congr (x : Int) {s u : State} (hcfg : s.cfg = u.cfg) (hdemod : s.demod = u.demod) :
    ∃ (d : Demod) (m : BitVec 4) (bytes : List Byte),
      exec (.dsamp x) s = .next
        { s with
          demod := d
          evt := s.evt ||| m
          byteOut := s.byteOut ++ bytes
          responses := s.responses ++ [.ok 0] } ∧
      exec (.dsamp x) u = .next
        { u with
          demod := d
          evt := u.evt ||| m
          byteOut := u.byteOut ++ bytes
          responses := u.responses ++ [.ok 0] } := by
  refine ⟨_, _, _, exec_dsamp_eq x s, ?_⟩
  rw [exec_dsamp_eq x u, hcfg, hdemod]

/-- Operations between the samples that do not write the context change neither the context nor the bytes
(41_demodulator.md R138). -/
theorem execAll_filter_isDsamp (l : List Instr) (s u : State) (hcfg : s.cfg = u.cfg) (hdemod : s.demod = u.demod)
    (hl : ∀ i ∈ l, isDsamp i = true ∨ writesContext s.cfg i = false) :
    ∃ t v bytes, execAll l s = .next t ∧ execAll (l.filter isDsamp) u = .next v ∧
      t.demod = v.demod ∧ t.byteOut = s.byteOut ++ bytes ∧ v.byteOut = u.byteOut ++ bytes := by
  induction l generalizing s u with
  | nil => exact ⟨s, u, [], rfl, rfl, hdemod, (List.append_nil _).symm, (List.append_nil _).symm⟩
  | cons i l ih =>
    rw [List.forall_mem_cons] at hl
    obtain ⟨hi, hl⟩ := hl
    cases hd : isDsamp i with
    | true =>
      obtain ⟨x, rfl⟩ : ∃ x, i = .dsamp x := by
        cases i with
        | dsamp x => exact ⟨x, rfl⟩
        | _ => cases hd
      obtain ⟨d, m, bytes, hs, hu⟩ := exec_dsamp_congr x hcfg hdemod
      obtain ⟨t, v, more, ht, hv, htv, hts, hvu⟩ :=
        ih { s with demod := d, evt := s.evt ||| m, byteOut := s.byteOut ++ bytes, responses := _ }
          { u with demod := d, evt := u.evt ||| m, byteOut := u.byteOut ++ bytes, responses := _ } hcfg rfl hl
      refine ⟨t, v, bytes ++ more, (execAll_cons hs l).trans ht, ?_, htv, ?_, ?_⟩
      · rw [List.filter_cons_of_pos hd, execAll_cons hu, hv]
      · rw [hts, List.append_assoc]
      · rw [hvu, List.append_assoc]
    | false =>
      have hw : writesContext s.cfg i = false := hi.resolve_left (by simp [hd])
      obtain ⟨s', hs⟩ := exec_completes i s
      obtain ⟨hc, hb⟩ := exec_cfg_byteOut_of_not_dsamp hd hs
      have hdem := exec_demod_of_not_writesContext hw hs
      obtain ⟨t, v, bytes, ht, hv, htv, hts, hvu⟩ :=
        ih s' u (hc.trans hcfg) (hdem.trans hdemod) (hc.symm ▸ hl)
      refine ⟨t, v, bytes, (execAll_cons hs l).trans ht, ?_, htv, by rw [hts, hb], hvu⟩
      rw [List.filter_cons_of_neg (by simp [hd]), hv]

/-! ### The statements -/

/-- Settles O27, from the delay line after `DSAMP`, which is the shifted one whether or not the stride ends. -/
theorem dsampShiftsTheDelayLine : Obligations.DsampShiftsTheDelayLine := by
  intro x s
  refine ⟨_, exec_dsamp_eq x s, ?_⟩
  simp only [demodSample_dl]
  exact ⟨shiftIn_length .., shiftIn_getElem?_zero _, fun _ h => shiftIn_getElem?_succ _ h⟩

/-- Settles O30: each of the four sums of products is the sum over the window's indices. -/
theorem correlationIsTheEnergyDifference : Obligations.CorrelationIsTheEnergyDifference := by
  intro c dl hwf hlen
  have hsum : ∀ tm ∈ [c.tmI, c.tmQ, c.tsI, c.tsQ], dot (window dl) tm = _ := fun tm htm =>
    dot_window_eq_sum hlen (Cfg.wf_templates hwf tm htm).1
  rw [correlation, toneEnergy, toneEnergy, hsum c.tmI (by simp), hsum c.tmQ (by simp), hsum c.tsI (by simp),
    hsum c.tsQ (by simp)]

/-- Settles O32: the statement's nudged phase is the model's `nudgedPhase`, whose bounds and advance are the lemmas
above, and a latch leaves what the phase tracking wrote. -/
theorem dsampTracksTheBitPhase : Obligations.DsampTracksTheBitPhase := by
  intro x s ⟨hwf, _, _⟩ hend d f c p nudged
  obtain ⟨_, _, _, _, _, hinc, _, _, _, _⟩ := Cfg.wf_demod hwf
  have hn : nudged = nudgedPhase s.cfg f d := (nudgedPhase_eq s.cfg f d).symm
  clear_value nudged
  subst hn
  have hle := nudgedPhase_le s.cfg f d
  refine ⟨hle, by omega, fun hs => Nat.le_of_lt_succ (nudgedPhase_lt hs f d), ?_, _, exec_dsamp_eq x s, ?_⟩
  · intro hc hlate hs hmax
    exact (if_neg hc).trans (nudge_eq_wrap hs hlate d.ph.isLt hmax)
  · obtain ⟨_, _, hsub, hph, htph, hcprev, _, _⟩ :=
      stepWith_frame s.cfg f { d with dl := shiftIn (u16 x) d.dl, subcnt := 0 }
    simp only [demodSample_of_stride_end hend]
    exact ⟨hcprev, htph, (congrArg BitVec.toNat hph).trans (trackPhase_ph_toNat hinc f _), hsub⟩

/-- Settles O34: at a wrap the step is the match or the byte assembly on `latched`, which is the statement's tracked
context. -/
theorem dsampLatchesABitAtAWrap : Obligations.DsampLatchesABitAtAWrap := by
  intro x s _ hend d dl f c p nudged voted sr tracked ok hwrap
  have hn : nudged = nudgedPhase s.cfg f d := (nudgedPhase_eq s.cfg f d).symm
  clear_value nudged
  subst hn
  have hstep : demodSample s.cfg (u16 x) s.demod = matchOrAssemble s.cfg tracked :=
    calc demodSample s.cfg (u16 x) s.demod
      _ = stepWith s.cfg f { d with dl := dl, subcnt := 0 } := demodSample_of_stride_end hend (u16 x)
      _ = matchOrAssemble s.cfg (latched s.cfg f { d with dl := dl, subcnt := 0 }) :=
        stepWith_of_wrap (decide_eq_true hwrap)
      _ = matchOrAssemble s.cfg tracked := congrArg _ (latched_eq hwrap)
  rw [exec_dsamp, execDsamp]
  simp only [hstep]
  exact congrArg _ (respond_matchOrAssemble s tracked)

/-- Settles O39, from the effect of one `DSAMP` and by induction on the list. -/
theorem streamingEquivalence : Obligations.StreamingEquivalence :=
  ⟨fun x _ _ hcfg hdemod => exec_dsamp_congr x hcfg hdemod, execAll_filter_isDsamp⟩

end Sys2Proof.Machine
end

section
/-! SUPPORT. The modulator (42_modulator.md R160 to R166): the words of its operations, a tone as a ramp of phases,
sending bits in parts and operation by operation, and what every operation emits. -/

namespace Sys2Proof

/-! ### The words of the modulator's operations (30_encoding.md R83, R84) -/

theorem decode_packWord_mbit (v : Bool) : decode (packWord 0x20 0x00 (BitVec.ofNat 16 v.toNat)) = .ok (.mbit v) := by
  cases v <;> decide

theorem decode_packWord_mbyte (b : Byte) : decode (packWord 0x21 0x00 (0x00#8 ++ b)) = .ok (.mbyte b) := by
  have hhigh : (0x00#8 ++ b).extractLsb' 8 8 = 0x00#8 := BitVec.extractLsb'_append_eq_left
  have hlow : (0x00#8 ++ b).extractLsb' 0 8 = b := BitVec.extractLsb'_append_eq_right
  simp [decode, acceptFormat, Format.unusedBitsZero, hhigh, hlow]

theorem decode_packWord_mpre {n : Nat} (h : n < 65536) :
    decode (packWord 0x22 0x00 (BitVec.ofNat 16 n)) = .ok (.mpre n) := by
  simp [decode, acceptFormat, Format.unusedBitsZero, Nat.mod_eq_of_lt h]

theorem decode_packWord_msil {n : Nat} (h : n < 16777216) :
    decode (packWord 0x23 (BitVec.ofNat 8 (n / 65536)) (BitVec.ofNat 16 n)) = .ok (.msil n) := by
  have hcount : n / 65536 % 256 * 65536 + n % 65536 = n := by omega
  simp [decode, acceptFormat, Format.unusedBitsZero, hcount]

end Sys2Proof

namespace Sys2Proof.Machine

/-! ### A tone as a ramp of phases (42_modulator.md R160, R161) -/

/-- The phase after `j` advances by the increment of bit value `v` (42_modulator.md R161). -/
def rampPhase (c : Cfg) (v : Bool) (p : Word) (j : Nat) : Word := p + BitVec.ofNat 32 j * ftw c v

theorem rampPhase_zero (c : Cfg) (v : Bool) (p : Word) : rampPhase c v p 0 = p := by
  simp [rampPhase]

theorem rampPhase_succ (c : Cfg) (v : Bool) (p : Word) (j : Nat) :
    rampPhase c v p (j + 1) = rampPhase c v p j + ftw c v := by
  rw [rampPhase, rampPhase, BitVec.ofNat_add, BitVec.add_mul, BitVec.one_mul, BitVec.add_assoc]

theorem rampPhase_toNat (c : Cfg) (v : Bool) (p : Word) (j : Nat) :
    (rampPhase c v p j).toNat = (p.toNat + j * (if v then c.ftwMark else c.ftwSpace)) % 4294967296 := by
  rw [rampPhase, ftw, ← BitVec.ofNat_mul, BitVec.toNat_add, BitVec.toNat_ofNat, Nat.add_mod_mod]

/-- A tone is the samples at the phases of the ramp, and leaves the phase that ends it (42_modulator.md R160). -/
theorem tone_eq_ramp (c : Cfg) (v : Bool) (k : Nat) (p : Word) :
    tone c v k p = ((List.range k).map (fun j => ncoSample c (rampPhase c v p j)), rampPhase c v p k) := by
  induction k with
  | zero => rw [rampPhase_zero]; rfl
  | succ k ih =>
    rw [tone_add, ih, List.range_succ, List.map_append, rampPhase_succ]
    rfl

/-- The table index of a phase is its top 8 bits, the bits where a word has its opcode (42_modulator.md R161). -/
theorem ncoIndex_eq (p : Word) : ncoIndex p = p.toNat / 16777216 := opcodeField_toNat p

theorem ncoSample_eq (c : Cfg) (p : Word) :
    ncoSample c p =
      BitVec.ofInt 16 (Int.fdiv ((c.amp : Int) * c.sinlut.getD (p.toNat / 16777216) 0) 32768) := by
  rw [ncoSample, ncoValue, ncoIndex_eq, Int.fdiv_eq_ediv_of_nonneg _ (by decide)]

/-! ### Sending bits in parts (42_modulator.md R162, R163, R165) -/

theorem transmit_nil (s : State) : transmit [] s = s := by
  rw [transmit, sendBits_nil, emitSamples, List.append_nil]

theorem transmit_append (l m : List Bool) (s : State) : transmit (l ++ m) s = transmit m (transmit l s) := by
  rw [transmit, sendBits_append, transmit, transmit, emitSamples, emitSamples, emitSamples, List.append_assoc]

/-- Operations that each send bits send, one after another, all of their bits, and each gives its response. -/
theorem execAll_map_transmit {α : Type} {op : α → Instr} {bits : α → List Bool}
    (hop : ∀ a s, exec (op a) s = .next (respond (.ok 0) (transmit (bits a) s))) (l : List α) (s : State) :
    execAll (l.map op) s = .next
      { transmit (l.flatMap bits) s with responses := s.responses ++ List.replicate l.length (.ok 0) } := by
  induction l generalizing s with
  | nil => rw [List.flatMap_nil, transmit_nil, List.length_nil, List.replicate_zero, List.append_nil]; rfl
  | cons a l ih =>
    rw [List.map_cons, execAll_cons (hop a s), ih, List.flatMap_cons, transmit_append, respond_responses,
      List.append_assoc]
    rfl

theorem preambleBits_eq_flatMap (c : Cfg) (n : Nat) :
    preambleBits c n = (List.replicate n c.syncByte).flatMap wireBits := by
  induction n with
  | zero => rfl
  | succ n ih => rw [preambleBits, ih, List.replicate_succ, List.flatMap_cons]

/-! ### What every operation emits (42_modulator.md R166) -/

/-- The samples an operation emits and the `MPH` it leaves, from the configuration, the operation and `MPH` alone. -/
def emission (c : Cfg) (i : Instr) (p : Word) : List Half × Word :=
  match i with
  | .mbit v => sendBits c [v] p
  | .mbyte b => sendBits c (wireBits b) p
  | .mpre n => sendBits c (preambleBits c n) p
  | .msil n => (List.replicate n 0, 0)
  | .rst | .mrst => ([], 0)
  | .wrr sel v => ([], (regOf c sel).elim p (fun r => mphWrite r v p))
  | _ => ([], p)

theorem emission_length (c : Cfg) (i : Instr) (p : Word) :
    (emission c i p).1.length =
      match i with
      | .mbit _ => c.spb
      | .mbyte _ => 8 * c.spb
      | .mpre n => 8 * c.spb * n
      | .msil n => n
      | _ => 0 := by
  cases i with
  | mbit v => exact (sendBits_length ..).trans (Nat.mul_one _)
  | mbyte b => exact (sendBits_length ..).trans (Nat.mul_comm ..)
  | mpre n =>
    calc (sendBits c (preambleBits c n) p).1.length
      _ = c.spb * (8 * n) := by rw [sendBits_length, preambleBits_length]
      _ = 8 * c.spb * n := by ring
  | msil n => exact List.length_replicate
  | _ => rfl

/-- No operation writes the configuration (00_scope.md R8). -/
theorem exec_cfg {i : Instr} {s t : State} (h : exec i s = .next t) : t.cfg = s.cfg := by
  cases hd : isDsamp i with
  | false => exact (exec_cfg_byteOut_of_not_dsamp hd h).1
  | true =>
    cases i with
    | dsamp x =>
      rw [exec_dsamp_eq] at h
      injection h with h
      subst h
      rfl
    | _ => cases hd

/-- A read-only register is no half of `MPH` (10_state.md R35, R36). -/
theorem mphWrite_of_readOnly {r : Reg} (h : readOnly r = true) (v : Half) (p : Word) : mphWrite r v p = p := by
  cases r with
  | errcode | errinfo => rfl
  | _ => cases h

/-- Every operation emits the samples of its `emission` and leaves its `MPH` (42_modulator.md R166). -/
theorem exec_emission {i : Instr} {s t : State} (h : exec i s = .next t) :
    t.sampOut = s.sampOut ++ (emission s.cfg i s.mph).1 ∧ t.mph = (emission s.cfg i s.mph).2 := by
  have hquiet : s.sampOut = s.sampOut ++ [] := (List.append_nil _).symm
  cases i with
  | rdr sel =>
    rcases execRdr_cases h with ⟨_, rfl⟩ | ⟨_, _, rfl⟩
    · exact ⟨(raiseFault_sampOut ..).trans hquiet, raiseFault_mph ..⟩
    · exact ⟨hquiet, rfl⟩
  | wrr sel v =>
    rcases execWrr_cases h with ⟨hr, rfl⟩ | ⟨r, hr, hro, rfl⟩ | ⟨r, hr, _, rfl⟩
    · exact ⟨(raiseFault_sampOut ..).trans hquiet, by simp [emission, hr]⟩
    · exact ⟨(raiseFault_sampOut ..).trans hquiet, by simp [emission, hr, mphWrite_of_readOnly hro]⟩
    · exact ⟨hquiet, by simp [emission, hr]⟩
  | dsamp x =>
    rw [exec_dsamp_eq] at h
    injection h with h
    subst h
    exact ⟨hquiet, rfl⟩
  | desync =>
    injection h with h
    subst h
    simp only [respond_sampOut, respond_mph]
    split <;> exact ⟨hquiet, rfl⟩
  | mbit | mbyte | mpre | msil =>
    injection h with h
    subst h
    exact ⟨rfl, rfl⟩
  | nop | rst | drst | mrst =>
    injection h with h
    subst h
    exact ⟨hquiet, rfl⟩

/-- Operations in order emit the same samples and leave the same `MPH` from any two states of equal configuration
and `MPH` (42_modulator.md R166). -/
theorem execAll_samples_congr (l : List Instr) (s u : State) (hcfg : s.cfg = u.cfg) (hmph : s.mph = u.mph) :
    ∃ t v samples, execAll l s = .next t ∧ execAll l u = .next v ∧ t.mph = v.mph ∧
      t.sampOut = s.sampOut ++ samples ∧ v.sampOut = u.sampOut ++ samples := by
  induction l generalizing s u with
  | nil => exact ⟨s, u, [], rfl, rfl, hmph, (List.append_nil _).symm, (List.append_nil _).symm⟩
  | cons i l ih =>
    obtain ⟨s', hs⟩ := exec_completes i s
    obtain ⟨u', hu⟩ := exec_completes i u
    obtain ⟨hsout, hsmph⟩ := exec_emission hs
    obtain ⟨huout, humph⟩ := exec_emission hu
    rw [← hcfg, ← hmph] at huout humph
    obtain ⟨t, v, more, ht, hv, htv, htout, hvout⟩ :=
      ih s' u' ((exec_cfg hs).trans (hcfg.trans (exec_cfg hu).symm)) (hsmph.trans humph.symm)
    refine ⟨t, v, (emission s.cfg i s.mph).1 ++ more, (execAll_cons hs l).trans ht, (execAll_cons hu l).trans hv,
      htv, ?_, ?_⟩
    · rw [htout, hsout, List.append_assoc]
    · rw [hvout, huout, List.append_assoc]

/-! ### The statements -/

/-- Settles O43: one bit is one tone, and the ramp's phases as numbers are the statement's. -/
theorem mbitEmitsThePhaseRamp : Obligations.MbitEmitsThePhaseRamp := by
  refine ⟨fun v s => ?_, decode_packWord_mbit, .unusedBitSet 0x20, by decide⟩
  intro step phase
  have hphase (j : Nat) : (rampPhase s.cfg v s.mph j).toNat = phase j := rampPhase_toNat s.cfg v s.mph j
  have hlast : rampPhase s.cfg v s.mph s.cfg.spb = BitVec.ofNat 32 (phase s.cfg.spb) := by
    rw [← hphase, BitVec.ofNat_toNat, BitVec.setWidth_eq]
  rw [exec_mbit, execMbit, transmit, sendBits_singleton, tone_eq_ramp, hlast]
  simp only [ncoSample_eq, hphase]
  rfl

/-- Settles O45: the bits of the byte in wire order are sent bit by bit or all at once, to the same effect. -/
theorem mbyteIsEightMbits : Obligations.MbyteIsEightMbits := by
  refine ⟨fun b s => ?_, decode_packWord_mbyte⟩
  have hbits : (wireBits b).flatMap (fun v => [v]) = wireBits b := List.flatMap_singleton' _
  refine ⟨_, execAll_map_transmit (op := .mbit) (fun v t => exec_mbit v t) (wireBits b) s, rfl, ?_, ?_⟩
  · simp only [hbits, transmit_sampOut, List.length_append, sendBits_length, wireBits_length, Nat.mul_comm]
  · rw [hbits]
    rfl

/-- Settles O46: the preamble's bits are those of the repeated sync byte. -/
theorem mpreIsRepeatedMbyte : Obligations.MpreIsRepeatedMbyte := by
  refine ⟨fun n s => ?_, fun n hn => decode_packWord_mpre hn⟩
  have hrun := execAll_map_transmit (op := .mbyte) (fun b t => exec_mbyte b t)
    (List.replicate n s.cfg.syncByte) s
  rw [List.map_replicate, ← preambleBits_eq_flatMap] at hrun
  exact ⟨_, hrun, rfl, rfl⟩

/-- Settles O48: `emission` has no state argument, and runs follow by induction on the list. -/
theorem sampleCountAndDeterminism : Obligations.SampleCountAndDeterminism := by
  refine ⟨fun i s u hcfg hmph => ?_, execAll_samples_congr⟩
  obtain ⟨t, ht⟩ := exec_completes i s
  obtain ⟨v, hv⟩ := exec_completes i u
  obtain ⟨htout, htmph⟩ := exec_emission ht
  obtain ⟨hvout, hvmph⟩ := exec_emission hv
  rw [← hcfg, ← hmph] at hvout hvmph
  exact ⟨t, v, _, ht, hv, htmph.trans hvmph.symm, htout, hvout, emission_length s.cfg i s.mph⟩

/-- Settles O47: `MSIL` by its definition, its count from the two fields of the word. -/
theorem msilEmitsZerosFromPhaseZero : Obligations.MsilEmitsZerosFromPhaseZero :=
  ⟨fun n s => exec_msil n s, fun _ hn => decode_packWord_msil hn⟩

end Sys2Proof.Machine
end

section
/-! SUPPORT. Faults and the interrupt line (60_exceptions.md R182, R185): which operations fault, what an operation
that does not fault answers and does to `EVT.ERR`, and the one place where `IEN` is seen. -/

namespace Sys2Proof.Machine

/-! ### Which operations fault (60_exceptions.md R182) -/

theorem opFaults_rdr_iff {c : Cfg} (hc : c.wf = true) (sel : Byte) :
    opFaults c (.rdr sel) = true ↔ ¬ selectorMapped c sel := by
  rw [selectorMapped_iff (Cfg.corrlen_le_of_wf hc), opFaults, Option.isNone_iff_eq_none,
    Option.eq_none_iff_forall_ne_some, not_exists]

/-- The read-only registers by their selectors (10_state.md R35, R36; 20_memory.md R61). -/
theorem readOnly_iff_of_regOf {c : Cfg} {sel : Byte} {r : Reg} (h : regOf c sel = some r) :
    readOnly r = true ↔ sel = 0x03 ∨ sel = 0x04 := by
  constructor
  · obtain ⟨hsel, _⟩ := regOf_some h
    subst hsel
    cases r with
    | errcode => exact fun _ => .inl rfl
    | errinfo => exact fun _ => .inr rfl
    | _ => exact fun hr => nomatch hr
  · rintro (rfl | rfl)
    · obtain rfl : Reg.errcode = r := Option.some.inj h
      rfl
    · obtain rfl : Reg.errinfo = r := Option.some.inj h
      rfl

theorem opFaults_wrr_iff {c : Cfg} (hc : c.wf = true) (sel : Byte) (v : Half) :
    opFaults c (.wrr sel v) = true ↔ ¬ selectorMapped c sel ∨ sel = 0x03 ∨ sel = 0x04 := by
  rw [selectorMapped_iff (Cfg.corrlen_le_of_wf hc), opFaults]
  cases hreg : regOf c sel with
  | none => simp
  | some r => simp [readOnly_iff_of_regOf hreg]

theorem exec_wrr_readOnlySelector {sel : Byte} (h : sel = 0x03 ∨ sel = 0x04) (v : Half) (s : State) :
    exec (.wrr sel v) s = faulted .roWrite 3 (0x02#8 ++ sel) s := by
  rcases h with rfl | rfl
  · exact exec_wrr_readOnly v (regOf_errcode _) rfl
  · exact exec_wrr_readOnly v (regOf_errinfo _) rfl

/-! ### Operations that do not fault -/

/-- An operation that does not fault answers `OK`, once (30_encoding.md R90). -/
theorem exec_answers_ok {i : Instr} {s t : State} (hf : opFaults s.cfg i = false) (h : exec i s = .next t) :
    ∃ d, t.responses = s.responses ++ [.ok d] := by
  obtain ⟨u, r, hu, hresp, hr⟩ := everyOperationRespondsOnce.1 i s
  obtain rfl : t = u := Host.Outcome.next.inj (h.symm.trans hu)
  rw [hf, if_neg Bool.false_ne_true] at hr
  cases i with
  | rdr sel =>
    obtain ⟨g, _, rfl⟩ := hr
    exact ⟨_, hresp⟩
  | _ => exact ⟨0, hr ▸ hresp⟩

/-- Only a fault, `RST` and `WRR EVT` change `EVT.ERR` (60_exceptions.md R184). -/
theorem exec_keeps_errBit {i : Instr} {s t : State} (hf : opFaults s.cfg i = false) (hrst : i ≠ .rst)
    (hwrr : ∀ v, i ≠ .wrr 0x01 v) (h : exec i s = .next t) : t.evt.getLsbD 3 = s.evt.getLsbD 3 := by
  have hother (e : Event) (he : eventBit e ≠ 3) : (evtWith s.evt e).getLsbD 3 = s.evt.getLsbD 3 := by
    rw [evtWith_getLsbD s.evt e 3 (by decide), decide_eq_false he.symm, Bool.or_false]
  rcases exec_evt_cases h with ht | ⟨_, _, ht | ht⟩ | ⟨_, _, ht⟩ | ⟨hfault, _⟩ | ⟨rfl, _⟩ | ⟨v, rfl, _⟩
  · rw [ht]
  · rw [ht, hother .sync (by decide)]
  · rw [ht, hother .byte (by decide)]
  · rw [ht, hother .desync (by decide)]
  · rw [hf] at hfault
    cases hfault
  · exact absurd rfl hrst
  · exact absurd rfl (hwrr v)

/-- `WRR EVT` writes one to clear, `EVT.ERR` included (40_system_ops.md R102). -/
theorem exec_wrr_evt_errBit {v : Half} {s t : State} (h : exec (.wrr 0x01 v) s = .next t) :
    t.evt.getLsbD 3 = (s.evt.getLsbD 3 && !v.getLsbD 3) := by
  obtain rfl := Host.Outcome.next.inj ((execWrr_writable v (regOf_evt s.cfg) rfl).symm.trans h)
  exact evtCleared_getLsbD s.evt v 3 (by decide)

/-- Settles O23: the three rows of the fault table from the selector map, and all else from what an operation can do
to `EVT`. -/
theorem operationsFaultOnlyAsListed : Obligations.OperationsFaultOnlyAsListed := by
  refine ⟨fun w s hw => runWord_of_no_match hw s, fun i s hwf => ⟨?_, fun hf => ?_, ?_⟩⟩
  · cases i with
    | rdr sel => exact opFaults_rdr_iff hwf sel
    | wrr sel v => exact opFaults_wrr_iff hwf sel v
    | _ => exact Bool.false_eq_true.to_iff
  · obtain ⟨t, ht⟩ := exec_completes i s
    obtain ⟨d, hd⟩ := exec_answers_ok hf ht
    refine ⟨t, d, ht, hd, ?_⟩
    cases i with
    | rst =>
      obtain rfl := Host.Outcome.next.inj ht
      exact BitVec.getLsbD_zero
    | wrr sel v =>
      by_cases hsel : sel = 0x01#8
      · subst hsel
        exact exec_wrr_evt_errBit ht
      · rw [exec_keeps_errBit hf (by simp) (by simp [hsel]) ht]
        simp [hsel]
    | _ => exact exec_keeps_errBit hf (by simp) (by simp) ht
  · have hcorr := Cfg.corrlen_le_of_wf hwf
    cases i with
    | rdr sel => exact fun hsel => exec_rdr_unmapped (regOf_unmapped hcorr hsel)
    | wrr sel v =>
      exact ⟨fun hsel => exec_wrr_unmapped v (regOf_unmapped hcorr hsel),
        fun hsel => exec_wrr_readOnlySelector hsel v s⟩
    | _ => trivial

/-! ### The interrupt line (60_exceptions.md R185) -/

/-- Two event patterns meet in a bit iff their conjunction is not 0. -/
theorem irq_iff (s : State) : irq s = true ↔ ∃ k < 4, s.evt.getLsbD k = true ∧ s.ien.getLsbD k = true := by
  rw [irq, bne_iff_ne, ne_eq, BitVec.eq_of_getLsbD_eq_iff]
  simp

/-- Raising a fault neither reads nor writes `IEN` (60_exceptions.md R181). -/
theorem raiseFault_with_ien (code : FaultCode) (w : Word) (s : State) (e : BitVec 4) :
    raiseFault code w { s with ien := e } = { raiseFault code w s with ien := e } := by
  rw [raiseFault_eq, raiseFault_eq]
  rfl

/-- Only `IEN`'s own selector names it (20_memory.md R61). -/
theorem regOf_ne_ien {c : Cfg} {sel : Byte} {r : Reg} (h : regOf c sel = some r) (hsel : sel ≠ 0x02) :
    r ≠ .ien := by
  rintro rfl
  exact hsel (regOf_some h).1.symm

/-- Reading a register other than `IEN` does not see `IEN` (40_system_ops.md R101). -/
theorem regRead_with_ien {r : Reg} (hr : r ≠ .ien) (s : State) (e : BitVec 4) :
    regRead r { s with ien := e } = regRead r s := by
  cases r with
  | ien => exact absurd rfl hr
  | _ => rfl

/-- Writing a register other than `IEN` keeps `IEN` (40_system_ops.md R102). -/
theorem ienWrite_of_ne {r : Reg} (hr : r ≠ .ien) (v : Half) (e : BitVec 4) : ienWrite r v e = e := by
  cases r with
  | ien => exact absurd rfl hr
  | _ => rfl

/-- Writing a register other than `IEN` neither reads nor writes `IEN` (40_system_ops.md R102). -/
theorem regWrite_with_ien {r : Reg} (hr : r ≠ .ien) (v : Half) (s : State) (e : BitVec 4) :
    regWrite r v { s with ien := e } = { regWrite r v s with ien := e } := by
  simp only [regWrite, ienWrite_of_ne hr]

/-- `IEN` and an operation other than `RDR IEN`: the operation neither reads nor writes it, or it leaves the same state
whatever `IEN` was (60_exceptions.md R185). -/
theorem exec_with_ien_cases {i : Instr} {s t : State} (e : BitVec 4) (hi : i ≠ .rdr 0x02)
    (h : exec i s = .next t) :
    (t.ien = s.ien ∧ exec i { s with ien := e } = .next { t with ien := e }) ∨
      exec i { s with ien := e } = .next t := by
  cases i with
  | rdr sel =>
    rcases execRdr_cases h with ⟨hreg, rfl⟩ | ⟨r, hreg, rfl⟩
    · refine .inl ⟨raiseFault_ien .., ?_⟩
      rw [← raiseFault_with_ien]
      exact execRdr_unmapped (s := { s with ien := e }) hreg
    · have hr : r ≠ .ien := regOf_ne_ien hreg (fun hsel => hi (congrArg Instr.rdr hsel))
      refine .inl ⟨rfl, ?_⟩
      rw [exec_rdr, execRdr_mapped (s := { s with ien := e }) hreg, regRead_with_ien hr]
      rfl
  | wrr sel v =>
    rcases execWrr_cases h with ⟨hreg, rfl⟩ | ⟨r, hreg, hro, rfl⟩ | ⟨r, hreg, hrw, rfl⟩
    · refine .inl ⟨raiseFault_ien .., ?_⟩
      rw [← raiseFault_with_ien]
      exact execWrr_unmapped (s := { s with ien := e }) v hreg
    · refine .inl ⟨raiseFault_ien .., ?_⟩
      rw [← raiseFault_with_ien]
      exact execWrr_readOnly (s := { s with ien := e }) v hreg hro
    · rw [exec_wrr, execWrr_writable (s := { s with ien := e }) v hreg hrw]
      by_cases hr : r = .ien
      · subst hr
        exact .inr rfl
      · refine .inl ⟨ienWrite_of_ne hr v s.ien, ?_⟩
        rw [regWrite_with_ien hr]
        rfl
  | dsamp x =>
    rw [exec_dsamp_eq] at h ⊢
    obtain rfl := Host.Outcome.next.inj h
    exact .inl ⟨rfl, rfl⟩
  | desync =>
    obtain rfl := Host.Outcome.next.inj h
    rw [exec_desync, execDesync]
    cases hsynced : s.demod.synced with
    | true => exact .inl ⟨rfl, rfl⟩
    | false => exact .inl ⟨rfl, rfl⟩
  | rst => exact .inr h
  | _ =>
    obtain rfl := Host.Outcome.next.inj h
    exact .inl ⟨rfl, rfl⟩

/-- Settles O26: the line bit by bit, and the two ways an operation can treat `IEN`. -/
theorem interruptLineIsALevel : Obligations.InterruptLineIsALevel := by
  refine ⟨irq_iff, fun i s e hi => ?_⟩
  obtain ⟨t, ht⟩ := exec_completes i s
  rcases exec_with_ien_cases e hi ht with ⟨hien, hu⟩ | hu
  · exact ⟨t, _, ht, hu, rfl, .inl ⟨hien, rfl⟩⟩
  · exact ⟨t, t, ht, hu, rfl, .inr rfl⟩

end Sys2Proof.Machine
end

section
/-! SUPPORT. The encoder against the decoder (30_encoding.md sections 1 to 3): the word of every operation decodes to
it, and a word is packed from the fields its format keeps. -/

namespace Sys2Proof

/-! ### The operand ranges (30_encoding.md R83) -/

theorem Instr.wellFormed_dsamp_iff (x : Int) : (Instr.dsamp x).WellFormed ↔ -32768 ≤ x ∧ x ≤ 32767 := by
  simp [Instr.WellFormed, Instr.wellFormed]

theorem Instr.wellFormed_mpre_iff (n : Nat) : (Instr.mpre n).WellFormed ↔ n < 65536 := by
  simp [Instr.WellFormed, Instr.wellFormed, Nat.lt_succ_iff]

theorem Instr.wellFormed_msil_iff (n : Nat) : (Instr.msil n).WellFormed ↔ n < 16777216 := by
  simp [Instr.WellFormed, Instr.wellFormed, Nat.lt_succ_iff]

/-! ### Decoding an encoded operation -/

theorem decode_packWord_dsamp {x : Int} (hlo : -32768 ≤ x) (hhi : x ≤ 32767) :
    decode (packWord 0x10 0x00 (BitVec.ofInt 16 x)) = .ok (.dsamp x) := by
  have hx : (BitVec.ofInt 16 x).toInt = x :=
    BitVec.toInt_ofInt_eq_self (by decide) hlo (Int.lt_of_le_of_lt hhi (by decide))
  simp [decode, acceptFormat, Format.unusedBitsZero, hx]

/-- Settles O1, operation by operation: each word is packed from an opcode and the operand's fields. -/
theorem decodeEncodeAgree : Obligations.DecodeEncodeAgree := by
  intro i hi
  cases i with
  | rdr sel => exact decode_packWord_rdr sel
  | wrr sel v => exact decode_packWord_wrr sel v
  | dsamp x =>
    obtain ⟨hlo, hhi⟩ := (Instr.wellFormed_dsamp_iff x).1 hi
    exact decode_packWord_dsamp hlo hhi
  | mbit v => exact decode_packWord_mbit v
  | mbyte b => exact decode_packWord_mbyte b
  | mpre n => exact decode_packWord_mpre ((Instr.wellFormed_mpre_iff n).1 hi)
  | msil n => exact decode_packWord_msil ((Instr.wellFormed_msil_iff n).1 hi)
  | nop | rst | desync | drst | mrst => decide

/-! ### Encoding a decoded word -/

/-- A word is packed from the values of its fields (30_encoding.md R81). -/
theorem packWord_eq_of_fields {w : Word} {op sel : BitVec 8} {imm : BitVec 16} (hop : opcodeField w = op)
    (hsel : selField w = sel) (himm : immField w = imm) : packWord op sel imm = w := by
  rw [← hop, ← hsel, ← himm, packWord_fields]

theorem Format.imm_of_R {w : Word} (h : Format.R.unusedBitsZero w = true) : immField w = 0 :=
  eq_of_beq h

theorem Format.sel_of_I {w : Word} (h : Format.I.unusedBitsZero w = true) : selField w = 0 :=
  eq_of_beq h

/-- Format `B` keeps a byte: the high byte of the immediate is 0 (30_encoding.md R82). -/
theorem Format.fields_of_B {w : Word} (h : Format.B.unusedBitsZero w = true) :
    selField w = 0 ∧ immField w = 0x00#8 ++ (immField w).extractLsb' 0 8 := by
  simp only [unusedBitsZero, Bool.and_eq_true, beq_iff_eq] at h
  obtain ⟨hsel, hhigh⟩ := h
  refine ⟨hsel, ?_⟩
  calc immField w
    _ = (immField w).extractLsb' 8 8 ++ (immField w).extractLsb' 0 8 := by
      rw [BitVec.extractLsb'_append_extractLsb'_eq_extractLsb' (by decide)]
      exact BitVec.extractLsb'_eq_self.symm
    _ = 0x00#8 ++ (immField w).extractLsb' 0 8 := by rw [hhigh]; rfl

/-- Format `T` keeps a bit: bits 15:1 of the immediate are 0 (30_encoding.md R82). -/
theorem Format.fields_of_T {w : Word} (h : Format.T.unusedBitsZero w = true) :
    selField w = 0 ∧ immField w = BitVec.ofNat 16 ((immField w).getLsbD 0).toNat := by
  simp only [unusedBitsZero, Bool.and_eq_true, beq_iff_eq] at h
  obtain ⟨hsel, hhigh⟩ := h
  have hn : (immField w).toNat / 2 % 32768 = 0 := by
    simpa [BitVec.extractLsb'_toNat, Nat.shiftRight_eq_div_pow] using congrArg BitVec.toNat hhigh
  refine ⟨hsel, BitVec.eq_of_toNat_eq ?_⟩
  rw [BitVec.toNat_ofNat, immBit_toNat]
  rw [immField_toNat] at hn ⊢
  omega

/-- The 24-bit count of format `N` gives its two fields back (30_encoding.md R83). -/
theorem fields_of_countField (w : Word) :
    selField w = BitVec.ofNat 8 (countField w / 65536) ∧ immField w = BitVec.ofNat 16 (countField w) := by
  have hsel := (selField w).isLt
  have himm := (immField w).isLt
  constructor
  all_goals
    refine BitVec.eq_of_toNat_eq ?_
    rw [BitVec.toNat_ofNat, countField]
    omega

/-- A word of format `Z` is packed from its opcode alone (30_encoding.md R82). -/
theorem Format.packWord_of_Z {w : Word} {op : BitVec 8} (hop : opcodeField w = op)
    (h : Format.Z.unusedBitsZero w = true) : packWord op 0 0 = w := by
  rw [← hop, ← eq_packWord_of_formatZ h]

/-- Settles O2, row by row of the decoder: the operand and the zero bits of the format are the whole word. -/
theorem decodedWordIsItsEncoding : Obligations.DecodedWordIsItsEncoding := by
  intro w i h
  have himm := (immField w).isLt
  have hsel := (selField w).isLt
  rcases decode_cases h with ⟨hop, hz, rfl⟩ | ⟨hop, hz, rfl⟩ | ⟨hop, hz, rfl⟩ | ⟨hop, hz, rfl⟩ | ⟨hop, hz, rfl⟩ |
    ⟨hop, hz, rfl⟩ | ⟨hop, hz, rfl⟩ | ⟨hop, hz, rfl⟩ | ⟨hop, hz, rfl⟩ | ⟨hop, hz, rfl⟩ | ⟨hop, hz, rfl⟩ |
    ⟨hop, hz, rfl⟩
  · exact ⟨rfl, Format.packWord_of_Z hop hz⟩
  · exact ⟨rfl, packWord_eq_of_fields hop rfl (Format.imm_of_R hz)⟩
  · exact ⟨rfl, packWord_eq_of_fields hop rfl rfl⟩
  · exact ⟨rfl, Format.packWord_of_Z hop hz⟩
  · have hlo := BitVec.le_toInt (immField w)
    have hhi := BitVec.toInt_lt (x := immField w)
    refine ⟨(Instr.wellFormed_dsamp_iff _).2 ⟨hlo, Int.le_of_lt_add_one hhi⟩, ?_⟩
    exact packWord_eq_of_fields hop (Format.sel_of_I hz) BitVec.ofInt_toInt.symm
  · exact ⟨rfl, Format.packWord_of_Z hop hz⟩
  · exact ⟨rfl, Format.packWord_of_Z hop hz⟩
  · obtain ⟨hs, hi⟩ := Format.fields_of_T hz
    exact ⟨rfl, packWord_eq_of_fields hop hs hi⟩
  · obtain ⟨hs, hi⟩ := Format.fields_of_B hz
    exact ⟨rfl, packWord_eq_of_fields hop hs hi⟩
  · refine ⟨(Instr.wellFormed_mpre_iff _).2 himm, ?_⟩
    exact packWord_eq_of_fields hop (Format.sel_of_I hz) (by rw [BitVec.ofNat_toNat, BitVec.setWidth_eq])
  · obtain ⟨hs, hi⟩ := fields_of_countField w
    refine ⟨(Instr.wellFormed_msil_iff _).2 ?_, packWord_eq_of_fields hop hs hi⟩
    rw [countField]
    omega
  · exact ⟨rfl, Format.packWord_of_Z hop hz⟩

/-- Settles O5: the decoder run on each word. -/
theorem sampleWordsDecode : Obligations.SampleWordsDecode := by
  unfold Obligations.SampleWordsDecode
  decide

end Sys2Proof
end

section
/-! SUPPORT. The step (20_memory.md section 4): what a step does by what the host presents next, what every operation
keeps of each register, and the invariant of 10_state.md R43. -/

namespace Sys2Proof.Machine

/-! ### A step by what is presented next -/

/-- A step runs the presented word on the state without it (20_memory.md R70). -/
theorem step_of_word {s : State} {w : Word} {rest : List HostInput} (hwf : s.cfg.wf = true)
    (hin : s.inputs = .word w :: rest) : step s = runWord w { s with inputs := rest } := by
  simp only [step, acceptInput, hwf, hin, if_true]

theorem step_of_resetPin {s : State} {rest : List HostInput} (hwf : s.cfg.wf = true)
    (hin : s.inputs = .resetPin :: rest) : step s = .next (resetRegisters { s with inputs := rest }) := by
  simp only [step, acceptInput, hwf, hin, if_true, pulseResetPin]

theorem step_of_idle {s : State} (hwf : s.cfg.wf = true) (hin : s.inputs = []) : step s = .next s := by
  simp only [step, acceptInput, hwf, hin, if_true]

theorem runWord_of_decode {w : Word} {i : Instr} (h : decode w = .ok i) (s : State) : runWord w s = exec i s := by
  simp only [runWord, h]

theorem runWord_of_illegal {w : Word} {e : IllegalWord} (h : decode w = .error e) (s : State) :
    runWord w s = execIllegal w s := by
  simp only [runWord, h]

/-- The state when a step takes the head of the queue: everything else as it was (log entry 1). -/
def accepted (s : State) : State := { s with inputs := s.inputs.tail }

/-- Everything a step can do, by what the host presents next. -/
theorem step_by_next {s t : State} (h : step s = .next t) :
    (s.inputs = [] ∧ t = s) ∨ (nextIsResetPin s ∧ t = resetRegisters (accepted s)) ∨
      (∃ i, nextOp s i ∧ exec i (accepted s) = .next t) ∨
      (nextIsIllegal s ∧ ∃ w, t = raiseFault .illOp w (accepted s)) := by
  have htail {x : HostInput} {rest : List HostInput} (hin : s.inputs = x :: rest) :
      { s with inputs := rest } = accepted s := by rw [accepted, hin, List.tail_cons]
  obtain ⟨_, ⟨hin, rfl⟩ | ⟨rest, hin, rfl⟩ | ⟨w, rest, i, hin, hd, he⟩ | ⟨w, rest, e, hin, hd, rfl⟩⟩ := step_cases h
  · exact .inl ⟨hin, rfl⟩
  · exact .inr (.inl ⟨⟨rest, hin⟩, by rw [htail hin]⟩)
  · exact .inr (.inr (.inl ⟨i, ⟨w, rest, hin, hd⟩, htail hin ▸ he⟩))
  · exact .inr (.inr (.inr ⟨⟨w, rest, e, hin, hd⟩, w, by rw [htail hin]⟩))

/-- Settles O6: the presented word runs as what it decodes to, or as an illegal word. -/
theorem stepRunsTheDecodedOperation : Obligations.StepRunsTheDecodedOperation := by
  intro s w rest hwf hin
  have hstep := step_of_word hwf hin
  exact ⟨hstep, fun i hd => hstep.trans (runWord_of_decode hd _), fun e hd => hstep.trans (runWord_of_illegal hd _)⟩

/-- Settles O8: the two edges of a step, by its definition. -/
theorem idleAndRefusedSteps : Obligations.IdleAndRefusedSteps :=
  ⟨fun _ hwf hin => step_of_idle hwf hin, fun s hwf => by rw [step, hwf]; rfl⟩

/-- Settles O9: idle, the reset input, a decoded operation and an illegal word each complete. -/
theorem everyStepOfAnInstanceCompletes : Obligations.EveryStepOfAnInstanceCompletes := by
  intro s hwf
  cases hin : s.inputs with
  | nil => exact ⟨s, step_of_idle hwf hin⟩
  | cons x rest =>
    cases x with
    | resetPin => exact ⟨_, step_of_resetPin hwf hin⟩
    | word w =>
      rw [step_of_word hwf hin]
      cases hd : decode w with
      | ok i => rw [runWord_of_decode hd]; exact exec_completes i _
      | error e => exact ⟨_, runWord_of_illegal hd _⟩

/-- With no event there is no interrupt (60_exceptions.md R185). -/
theorem irq_of_no_event {s : State} (h : s.evt = 0) : irq s = false := by
  simp [irq, h]

/-- Settles O13: the pulse is `RST` without its response, and reset registers raise no interrupt. -/
theorem resetInputZeroesEveryRegister : Obligations.ResetInputZeroesEveryRegister := by
  intro s rest hwf hin
  exact ⟨_, _, step_of_resetPin hwf hin, rfl, rfl, rfl, rfl, rfl, rfl, rfl, rfl, rfl, rfl, rfl, rfl,
    irq_of_no_event rfl⟩

/-! ### What every operation keeps -/

/-- No operation touches what the host has yet to present (20_memory.md R70). -/
theorem exec_inputs {i : Instr} {s t : State} (h : exec i s = .next t) : t.inputs = s.inputs := by
  cases i with
  | rdr sel =>
    rcases execRdr_cases h with ⟨_, rfl⟩ | ⟨_, _, rfl⟩
    · exact raiseFault_inputs ..
    · rfl
  | wrr sel v =>
    rcases execWrr_cases h with ⟨_, rfl⟩ | ⟨_, _, _, rfl⟩ | ⟨_, _, _, rfl⟩
    · exact raiseFault_inputs ..
    · exact raiseFault_inputs ..
    · rfl
  | desync =>
    obtain rfl := Host.Outcome.next.inj h
    simp only [respond_inputs]
    split <;> rfl
  | dsamp x =>
    obtain rfl := Host.Outcome.next.inj ((exec_dsamp_eq x s).symm.trans h)
    rfl
  | _ =>
    obtain rfl := Host.Outcome.next.inj h
    rfl

/-- Only `DSAMP` emits bytes, and it appends them (20_memory.md R75). -/
theorem exec_byteOut_prefix {i : Instr} {s t : State} (h : exec i s = .next t) : s.byteOut <+: t.byteOut := by
  cases hd : isDsamp i with
  | false => rw [(exec_cfg_byteOut_of_not_dsamp hd h).2]
  | true =>
    cases i with
    | dsamp x =>
      obtain rfl := Host.Outcome.next.inj ((exec_dsamp_eq x s).symm.trans h)
      exact List.prefix_append ..
    | _ => cases hd

/-- Every operation appends its response (30_encoding.md R90). -/
theorem exec_responses_prefix {i : Instr} {s t : State} (h : exec i s = .next t) : s.responses <+: t.responses := by
  obtain ⟨u, r, hu, hr, _⟩ := everyOperationRespondsOnce.1 i s
  obtain rfl := Host.Outcome.next.inj (h.symm.trans hu)
  rw [hr]
  exact List.prefix_append ..

/-- An operation keeps the configuration and the queue, and appends to each stream (20_memory.md R75). -/
theorem exec_streams {i : Instr} {s t : State} (h : exec i s = .next t) :
    t.cfg = s.cfg ∧ t.inputs = s.inputs ∧ s.byteOut <+: t.byteOut ∧ s.sampOut <+: t.sampOut ∧
      s.responses <+: t.responses := by
  refine ⟨exec_cfg h, exec_inputs h, exec_byteOut_prefix h, ?_, exec_responses_prefix h⟩
  rw [(exec_emission h).1]
  exact List.prefix_append ..

/-- Settles O10: an operation, a reset and an illegal word each keep what the idle step keeps, or append to it. -/
theorem streamsOnlyGrow : Obligations.StreamsOnlyGrow := by
  intro s t h
  rcases step_by_next h with ⟨hin, rfl⟩ | ⟨_, rfl⟩ | ⟨i, _, he⟩ | ⟨_, w, rfl⟩
  · exact ⟨rfl, by rw [hin]; rfl, List.prefix_rfl, List.prefix_rfl, List.prefix_rfl⟩
  · exact ⟨rfl, rfl, List.prefix_rfl, List.prefix_rfl, List.prefix_rfl⟩
  · exact exec_streams (s := accepted s) he
  · rw [raiseFault_eq]
    exact ⟨rfl, rfl, List.prefix_rfl, List.prefix_rfl, List.prefix_append ..⟩

/-! ### The event bits by their sources (60_exceptions.md R184) -/

/-- `evtWith` clears no bit. -/
theorem evtWith_keeps {evt : BitVec 4} {e : Event} {k : Nat} (hk : k < 4) (h : evt.getLsbD k = true) :
    (evtWith evt e).getLsbD k = true := by
  rw [evtWith_getLsbD evt e k hk, h, Bool.true_or]

/-- A bit that `evtWith` sets is the event's own. -/
theorem eq_eventBit_of_evtWith {evt : BitVec 4} {e : Event} {k : Nat} (hk : k < 4) (h0 : evt.getLsbD k = false)
    (h1 : (evtWith evt e).getLsbD k = true) : k = eventBit e := by
  simpa [evtWith_getLsbD evt e k hk, h0] using h1

/-- An operation that clears an event bit is `RST` or writes 1 to it. -/
theorem exec_clears_eventBit {i : Instr} {s t : State} {k : Nat} (hk : k < 4) (h : exec i s = .next t)
    (h1 : s.evt.getLsbD k = true) (h0 : t.evt.getLsbD k = false) :
    i = .rst ∨ ∃ v : Half, i = .wrr 0x01 v ∧ v.getLsbD k = true := by
  have hset (e : Event) : t.evt ≠ evtWith s.evt e := fun ht => by
    rw [ht, evtWith_keeps hk h1] at h0
    cases h0
  rcases exec_evt_cases h with ht | ⟨_, _, ht | ht⟩ | ⟨_, _, ht⟩ | ⟨_, ht⟩ | ⟨rfl, _⟩ | ⟨v, rfl, ht⟩
  · rw [ht, h1] at h0
    cases h0
  · exact absurd ht (hset _)
  · exact absurd ht (hset _)
  · exact absurd ht (hset _)
  · exact absurd ht (hset _)
  · exact .inl rfl
  · rw [ht, evtCleared_getLsbD s.evt v k hk, h1] at h0
    exact .inr ⟨v, rfl, by simpa using h0⟩

/-- An operation that sets an event bit is that event's source. -/
theorem exec_sets_eventBit {i : Instr} {s t : State} {k : Nat} (hk : k < 4) (h : exec i s = .next t)
    (h0 : s.evt.getLsbD k = false) (h1 : t.evt.getLsbD k = true) :
    ((k = 0 ∨ k = 1) ∧ ∃ x, i = .dsamp x) ∨ (k = 2 ∧ i = .desync ∧ s.demod.synced = true) ∨
      (k = 3 ∧ opFaults s.cfg i = true) := by
  have hbit {e : Event} (ht : t.evt = evtWith s.evt e) : k = eventBit e :=
    eq_eventBit_of_evtWith hk h0 (ht ▸ h1)
  rcases exec_evt_cases h with ht | ⟨x, rfl, ht | ht⟩ | ⟨rfl, hs, ht⟩ | ⟨hf, ht⟩ | ⟨rfl, ht⟩ | ⟨v, rfl, ht⟩
  · rw [ht, h0] at h1
    cases h1
  · exact .inl ⟨.inl (hbit ht), x, rfl⟩
  · exact .inl ⟨.inr (hbit ht), x, rfl⟩
  · exact .inr (.inl ⟨hbit ht, rfl, hs⟩)
  · exact .inr (.inr ⟨hbit ht, hf⟩)
  · simp [ht] at h1
  · simp [ht, evtCleared_getLsbD s.evt v k hk, h0] at h1

/-- Settles O25, from what an operation, a reset and an illegal word each do to an event bit. -/
theorem eventBitsChangeOnlyByTheirSources : Obligations.EventBitsChangeOnlyByTheirSources := by
  intro s t k h hk
  rcases step_by_next h with ⟨_, rfl⟩ | ⟨hpin, rfl⟩ | ⟨i, hi, he⟩ | ⟨hill, w, rfl⟩
  · exact ⟨fun h1 h0 => by simp [h1] at h0, fun h0 h1 => by simp [h0] at h1⟩
  · exact ⟨fun _ _ => .inl hpin, fun _ h1 => by simp at h1⟩
  · constructor
    · intro h1 h0
      rcases exec_clears_eventBit hk he h1 h0 with rfl | ⟨v, rfl, hv⟩
      · exact .inr (.inl hi)
      · exact .inr (.inr ⟨v, hi, hv⟩)
    · intro h0 h1
      rcases exec_sets_eventBit hk he h0 h1 with ⟨hk01, x, rfl⟩ | ⟨hk2, rfl, hs⟩ | ⟨hk3, hf⟩
      · exact .inl ⟨hk01, x, hi⟩
      · exact .inr (.inl ⟨hk2, hi, hs⟩)
      · exact .inr (.inr ⟨hk3, .inr ⟨i, hi, hf⟩⟩)
  · rw [raiseFault_evt]
    constructor
    · intro h1 h0
      rw [accepted, evtWith_keeps hk h1] at h0
      cases h0
    · exact fun h0 h1 => .inr (.inr ⟨eq_eventBit_of_evtWith hk h0 h1, .inl hill⟩)

/-! ### The owners of `MPH` (42_modulator.md R165) -/

/-- An operation that changes `MPH` is a modulator operation, `RST` or a write to one of its halves. -/
theorem exec_changes_mph {i : Instr} {s t : State} (h : exec i s = .next t) (hne : t.mph ≠ s.mph) :
    i = .rst ∨ i = .mrst ∨ (∃ v, i = .mbit v) ∨ (∃ b, i = .mbyte b) ∨ (∃ n, i = .mpre n) ∨ (∃ n, i = .msil n) ∨
      ∃ v, i = .wrr 0x20 v ∨ i = .wrr 0x21 v := by
  rw [(exec_emission h).2] at hne
  cases i with
  | rst => exact .inl rfl
  | mrst => exact .inr (.inl rfl)
  | mbit v => exact .inr (.inr (.inl ⟨v, rfl⟩))
  | mbyte b => exact .inr (.inr (.inr (.inl ⟨b, rfl⟩)))
  | mpre n => exact .inr (.inr (.inr (.inr (.inl ⟨n, rfl⟩))))
  | msil n => exact .inr (.inr (.inr (.inr (.inr (.inl ⟨n, rfl⟩)))))
  | wrr sel v =>
    refine .inr (.inr (.inr (.inr (.inr (.inr ⟨v, ?_⟩)))))
    simp only [emission] at hne
    cases hreg : regOf s.cfg sel with
    | none => exact absurd (by rw [hreg]; rfl) hne
    | some r =>
      rw [hreg, Option.elim_some] at hne
      obtain ⟨hsel, _⟩ := regOf_some hreg
      subst hsel
      cases r with
      | mphl => exact .inl rfl
      | mphh => exact .inr rfl
      | _ => exact absurd rfl hne
  | _ => exact absurd rfl hne

/-- Settles O49: an illegal word and an idle step leave `MPH`, and an operation that changes it is an owner. -/
theorem phaseChangesOnlyByItsOwners : Obligations.PhaseChangesOnlyByItsOwners := by
  intro s t h hne
  rcases step_by_next h with ⟨_, rfl⟩ | ⟨hpin, _⟩ | ⟨i, hi, he⟩ | ⟨_, w, rfl⟩
  · exact absurd rfl hne
  · exact .inl hpin
  · refine .inr ?_
    rcases exec_changes_mph he hne with
      rfl | rfl | ⟨v, rfl⟩ | ⟨b, rfl⟩ | ⟨n, rfl⟩ | ⟨n, rfl⟩ | ⟨v, rfl | rfl⟩
    · exact .inl hi
    · exact .inr (.inl hi)
    · exact .inr (.inr (.inl ⟨v, hi⟩))
    · exact .inr (.inr (.inr (.inl ⟨b, hi⟩)))
    · exact .inr (.inr (.inr (.inr (.inl ⟨n, hi⟩))))
    · exact .inr (.inr (.inr (.inr (.inr (.inl ⟨n, hi⟩)))))
    · exact .inr (.inr (.inr (.inr (.inr (.inr ⟨v, .inl hi⟩)))))
    · exact .inr (.inr (.inr (.inr (.inr (.inr ⟨v, .inr hi⟩)))))
  · exact absurd (raiseFault_mph ..) hne

end Sys2Proof.Machine
end

section
/-! SUPPORT. What `DSAMP` keeps (41_demodulator.md R122 to R140): byte synchronisation, a step that reports nothing,
silence, and the bounds of the correlator; `DESYNC` (R141). -/

namespace Sys2Proof.Machine

/-! ### Byte synchronisation (41_demodulator.md R133, R134) -/

/-- A correlation step that does not wrap tracks the phase and reports nothing (41_demodulator.md R129). -/
theorem stepWith_of_no_wrap {c : Cfg} {f : Int} {d : Demod} (h : wraps c f d = false) :
    stepWith c f d = (trackPhase c f d, .quiet) := by
  rw [stepWith, h]
  rfl

/-- What `DSAMP` does to `SYNCED` and `BITCNT`, with what it reports: nothing, a match, a byte, or a counted bit
(41_demodulator.md R133, R134). -/
theorem demodSample_sync_cases (c : Cfg) (x : Half) (d : Demod) :
    let r := demodSample c x d
    (r.1.synced = d.synced ∧ r.1.bitcnt = d.bitcnt ∧ r.2 = .quiet) ∨
    (r.1.synced = true ∧ r.1.bitcnt = 0 ∧ r.2 = .sync) ∨
    (d.synced = true ∧ d.bitcnt = 7 ∧ r.1.synced = true ∧ r.1.bitcnt = 0 ∧ r.2 = .byte r.1.sr) ∨
    (r.1.synced = true ∧ d.synced = true ∧ r.2 = .quiet) := by
  intro r
  rcases demodSample_cases c x d with ⟨_, h⟩ | ⟨_, h⟩
  · exact .inl (by simp [r, h])
  · have hr : r = _ := h
    generalize correlation c (shiftIn x d.dl) = f at hr
    cases hw : wraps c f { d with dl := shiftIn x d.dl, subcnt := 0 } with
    | false => exact .inl (by simp [hr, stepWith_of_no_wrap hw])
    | true =>
      rw [stepWith_of_wrap hw] at hr
      rcases matchOrAssemble_cases c (latched c f { d with dl := shiftIn x d.dl, subcnt := 0 }) with
        ⟨_, hm⟩ | ⟨_, hs, h7, hm⟩ | ⟨_, hs, _, hm⟩ | ⟨_, hs, hm⟩
      · exact .inr (.inl (by simp [hr, hm]))
      · rw [hr, hm]
        exact .inr (.inr (.inl ⟨hs, h7, hs, rfl, rfl⟩))
      · rw [hr, hm]
        exact .inr (.inr (.inr ⟨hs, hs, rfl⟩))
      · rw [hr, hm]
        exact .inl ⟨rfl, rfl, rfl⟩

/-- `DSAMP` never clears `SYNCED` (41_demodulator.md R140). -/
theorem demodSample_keeps_synced (c : Cfg) (x : Half) {d : Demod} (h : d.synced = true) :
    (demodSample c x d).1.synced = true := by
  rcases demodSample_sync_cases c x d with ⟨hs, _⟩ | ⟨hs, _⟩ | ⟨_, _, hs, _⟩ | ⟨hs, _⟩
  · exact hs.trans h
  · exact hs
  · exact hs
  · exact hs

/-- `DSAMP` counts bits only while synchronised (10_state.md R26). -/
theorem demodSample_keeps_idle_bitcnt (c : Cfg) (x : Half) {d : Demod} (h : d.synced = false → d.bitcnt = 0)
    (hs : (demodSample c x d).1.synced = false) : (demodSample c x d).1.bitcnt = 0 := by
  rcases demodSample_sync_cases c x d with ⟨hs', hb, _⟩ | ⟨hs', _⟩ | ⟨_, _, hs', _⟩ | ⟨hs', _⟩
  · exact hb.trans (h (hs'.symm.trans hs))
  all_goals simp [hs'] at hs

/-- `DSAMP` leaves the shift register or shifts one bit in (41_demodulator.md R132). -/
theorem demodSample_sr_cases (c : Cfg) (x : Half) (d : Demod) :
    (demodSample c x d).1.sr = d.sr ∨ ∃ b, (demodSample c x d).1.sr = shiftBit b d.sr := by
  rcases demodSample_cases c x d with ⟨_, h⟩ | ⟨_, h⟩
  · exact .inl (by rw [h])
  · obtain ⟨_, _, _, _, _, _, _, hsr⟩ :=
      stepWith_frame c (correlation c (shiftIn x d.dl)) { d with dl := shiftIn x d.dl, subcnt := 0 }
    rw [h, hsr]
    split
    · exact .inr ⟨_, rfl⟩
    · exact .inl rfl

/-- A report sets no event but `SYNC` and `BYTE` (41_demodulator.md R140). -/
theorem DemodReport.events_getLsbD (r : DemodReport) {k : Nat} (hk : k = 2 ∨ k = 3) :
    r.events.getLsbD k = false := by
  rcases hk with rfl | rfl <;> cases r <;> simp [DemodReport.events]

/-- Settles O28, field by field of the effect of `DSAMP`. -/
theorem dsampNeverFaults : Obligations.DsampNeverFaults := by
  intro x s
  refine ⟨_, exec_dsamp_eq x s, rfl, demodSample_keeps_synced _ _, demodSample_hold .., ?_, ?_, rfl, rfl, rfl, rfl,
    rfl, rfl, rfl⟩
  · rw [BitVec.getLsbD_or, DemodReport.events_getLsbD _ (.inl rfl), Bool.or_false]
  · rw [BitVec.getLsbD_or, DemodReport.events_getLsbD _ (.inr rfl), Bool.or_false]

/-- Settles O36: a byte comes only with the report of a byte, which is no match. -/
theorem atMostOneByteAndOneBitPerSample : Obligations.AtMostOneByteAndOneBitPerSample := by
  intro x s t h
  obtain rfl := Host.Outcome.next.inj ((exec_dsamp_eq x s).symm.trans h)
  refine ⟨?_, demodSample_sr_cases ..⟩
  rcases demodSample_sync_cases s.cfg (u16 x) s.demod with
    ⟨_, _, hr⟩ | ⟨_, _, hr⟩ | ⟨hs, h7, _, hb, hr⟩ | ⟨_, _, hr⟩
  · exact .inl (by simp [hr, DemodReport.bytes])
  · exact .inl (by simp [hr, DemodReport.bytes])
  · refine .inr ⟨by rw [hr]; rfl, hs, h7, hb, ?_⟩
    simp [hr, DemodReport.events]
  · exact .inl (by simp [hr, DemodReport.bytes])

/-- Settles O35: each bit of the byte moves down from bit 7 once for every later bit. -/
theorem eightBitsAssembleTheByte : Obligations.EightBitsAssembleTheByte := by
  intro sr b
  refine BitVec.eq_of_getLsbD_eq fun k hk => ?_
  have hbits : wireBits b = [b.getLsbD 0, b.getLsbD 1, b.getLsbD 2, b.getLsbD 3, b.getLsbD 4, b.getLsbD 5,
    b.getLsbD 6, b.getLsbD 7] := rfl
  simp only [hbits, List.foldl_cons, List.foldl_nil]
  interval_cases k <;> simp (disch := decide) only [shiftBit_getLsbD, reduceIte, Nat.reduceEqDiff, Nat.reduceAdd]

/-! ### A `DSAMP` that reports nothing -/

/-- A `DSAMP` with nothing to report writes the context and answers (41_demodulator.md R140). -/
theorem exec_dsamp_of_quiet {x : Int} {s : State} {d : Demod} (h : demodSample s.cfg (u16 x) s.demod = (d, .quiet)) :
    exec (.dsamp x) s = .next { s with demod := d, responses := s.responses ++ [.ok 0] } := by
  rw [exec_dsamp, execDsamp, h]
  rfl

/-- Settles O29: within the stride a sample is shifted in and counted, and nothing is reported. -/
theorem dsampWithinTheStride : Obligations.DsampWithinTheStride := by
  intro x s hne
  refine exec_dsamp_of_quiet ?_
  rw [demodSample, if_neg hne]
  rfl

/-- Settles O33: without a wrap the step is the phase tracking, whose nudged phase and vote are the statement's. -/
theorem dsampVotesWithoutAWrap : Obligations.DsampVotesWithoutAWrap := by
  intro x s _ hend d dl f c p nudged hsum
  have hn : nudged = nudgedPhase s.cfg f d := (nudgedPhase_eq s.cfg f d).symm
  clear_value nudged
  subst hn
  refine exec_dsamp_of_quiet ?_
  rw [demodSample_of_stride_end hend]
  exact stepWith_of_no_wrap (decide_eq_false (Nat.not_le.2 hsum))

/-! ### Silence (41_demodulator.md R139) -/

/-- A correlation value of 0 keeps the candidate bit (41_demodulator.md R125). -/
theorem candidate_zero (cprev : Bool) : candidate 0 cprev = cprev := rfl

/-- A correlation value of 0 casts no vote (41_demodulator.md R126). -/
theorem vote_zero (c : Cfg) (int : Int) : vote c 0 int = int := rfl

/-- A correlation value of 0 is no transition (41_demodulator.md R127). -/
theorem nudgedPhase_zero (c : Cfg) (d : Demod) : nudgedPhase c 0 d = d.ph.toNat := if_pos rfl

/-- A correlation value of 0 only advances the phase (41_demodulator.md R139). -/
theorem trackPhase_zero (c : Cfg) (d : Demod) :
    trackPhase c 0 d = { d with ph := BitVec.ofNat 16 (d.ph.toNat + c.phinc) } := by
  simp only [trackPhase, nudgedPhase_zero, candidate_zero, vote_zero, if_true]

/-- A zero sample that ends a stride over a silent delay line: the phase advances, and a wrap latches a bit
(41_demodulator.md R139). -/
theorem demodSample_silent {c : Cfg} {d : Demod} (hdl : ∀ v ∈ d.dl, v = 0) (hend : d.subcnt + 1 = c.subsamp) :
    demodSample c 0 d = stepWith c 0 { d with subcnt := 0 } := by
  rw [demodSample_of_stride_end hend, shiftIn_silent hdl, correlation_silent c hdl]

theorem wraps_zero (c : Cfg) (d : Demod) : wraps c 0 d = decide (65536 ≤ d.ph.toNat + c.phinc) := by
  rw [wraps, nudgedPhase_zero]

/-- The registers a latch in silence leaves: the integrator as it stood decides the bit (41_demodulator.md R139). -/
theorem latched_zero (c : Cfg) (d : Demod) :
    latched c 0 d =
      { d with
        ph := BitVec.ofNat 16 (d.ph.toNat + c.phinc)
        int := afterLatch c d.int
        sr := shiftBit (slice d.int) d.sr } := by
  rw [latched, vote_zero, trackPhase_zero]

/-- Settles O37: the silent step, and after a wrap the match or the byte assembly, which leave the rest alone. -/
theorem silenceAdvancesThePhase : Obligations.SilenceAdvancesThePhase := by
  intro s _ hdl hend d sum
  have hstep : demodSample s.cfg (u16 0) s.demod = stepWith s.cfg 0 { d with subcnt := 0 } :=
    demodSample_silent hdl hend
  have hw := wraps_zero s.cfg { d with subcnt := 0 }
  constructor
  · intro hlt
    refine exec_dsamp_of_quiet ?_
    rw [hstep, stepWith_of_no_wrap (hw.trans (decide_eq_false (Nat.not_le.2 hlt))), trackPhase_zero]
  · intro hle
    rw [stepWith_of_wrap (hw.trans (decide_eq_true hle)), latched_zero, afterLatch_eq, shiftBit_slice_eq_ofNat,
      ← ofNat_sub_wrap hle] at hstep
    obtain ⟨synced, bitcnt, hframe⟩ := matchOrAssemble_frame s.cfg _
    rw [exec_dsamp_eq, hstep, hframe]
    exact ⟨synced, bitcnt, _, _, rfl⟩

/-- The block of profile `P0` after `n` silent samples from reset (95_test_vectors.md P6). -/
def silentState (n : Nat) : State :=
  { State.reset with
    demod := { Demod.cleared Cfg.P0 with ph := BitVec.ofNat 16 (n / 2 * 3121), subcnt := n % 2 }
    responses := List.replicate n (.ok 0) }

/-- A context that is searching, with an empty integrator and shift register, only advances its phase in silence: the
bit 0 of a wrap leaves `SR` at 0, which is no sync byte. -/
theorem stepWith_zero_of_empty {c : Cfg} {d : Demod} (hsync : c.syncByte ≠ 0) (hint : d.int = 0) (hsr : d.sr = 0)
    (hs : d.synced = false) :
    stepWith c 0 d = ({ d with ph := BitVec.ofNat 16 (d.ph.toNat + c.phinc) }, .quiet) := by
  cases hw : wraps c 0 d with
  | false => rw [stepWith_of_no_wrap hw, trackPhase_zero]
  | true =>
    have hint0 : afterLatch c 0 = 0 := by
      rw [afterLatch]
      cases c.intReset <;> rfl
    have hl : latched c 0 d = { d with ph := BitVec.ofNat 16 (d.ph.toNat + c.phinc) } := by
      rw [latched_zero, hint, hint0, hsr]
      rfl
    rw [stepWith_of_wrap hw, hl]
    rcases matchOrAssemble_cases c { d with ph := BitVec.ofNat 16 (d.ph.toNat + c.phinc) } with
      ⟨hm, _⟩ | ⟨_, hs', _⟩ | ⟨_, hs', _⟩ | ⟨_, _, h⟩
    · exact absurd (((matchTakesEffect_iff c _).1 hm).1.symm.trans hsr) hsync
    · exact absurd (hs.symm.trans hs') Bool.false_ne_true
    · exact absurd (hs.symm.trans hs') Bool.false_ne_true
    · exact h

/-- One more silent sample: an odd one counts the stride, an even one ends it. -/
theorem demodSample_silentState (n : Nat) :
    demodSample Cfg.P0 0 (silentState n).demod = ((silentState (n + 1)).demod, .quiet) := by
  have hdl : ∀ v ∈ (silentState n).demod.dl, v = 0 := fun v hv => List.eq_of_mem_replicate hv
  rcases Nat.mod_two_eq_zero_or_one n with h | h
  · have hsub : (silentState n).demod.subcnt + 1 ≠ Cfg.P0.subsamp := by
      show n % 2 + 1 ≠ 2
      omega
    have hhalf : (n + 1) / 2 = n / 2 := by omega
    have hmod : (n + 1) % 2 = n % 2 + 1 := by omega
    rw [demodSample, if_neg hsub, shiftIn_silent hdl]
    simp only [silentState, hhalf, hmod]
  · have hsub : (silentState n).demod.subcnt + 1 = Cfg.P0.subsamp := by
      show n % 2 + 1 = 2
      omega
    have hhalf : (n + 1) / 2 = n / 2 + 1 := by omega
    have hmod : (n + 1) % 2 = 0 := by omega
    have hph : BitVec.ofNat 16 ((BitVec.ofNat 16 (n / 2 * 3121)).toNat + 3121) =
        BitVec.ofNat 16 ((n / 2 + 1) * 3121) := by
      rw [BitVec.ofNat_add, BitVec.ofNat_toNat, BitVec.setWidth_eq, ← BitVec.ofNat_add, Nat.succ_mul]
    rw [demodSample_silent hdl hsub, stepWith_zero_of_empty (by decide) rfl rfl rfl]
    simp only [silentState, hhalf, hmod, ← hph]
    rfl

theorem exec_dsamp_silentState (n : Nat) : exec (.dsamp 0) (silentState n) = .next (silentState (n + 1)) := by
  have hq : demodSample (silentState n).cfg (u16 0) (silentState n).demod = ((silentState (n + 1)).demod, .quiet) :=
    demodSample_silentState n
  rw [exec_dsamp_of_quiet hq]
  simp only [silentState, List.replicate_succ']

/-- Settles O38: after `n` silent samples the block is `silentState n`, by induction on `n` from any of them. -/
theorem silenceFromResetEmitsNothing : Obligations.SilenceFromResetEmitsNothing := by
  have hrun (n k : Nat) : execAll (List.replicate n (.dsamp 0)) (silentState k) = .next (silentState (k + n)) := by
    induction n generalizing k with
    | zero => rfl
    | succ n ih => rw [List.replicate_succ, execAll_cons (exec_dsamp_silentState k), ih, Nat.succ_add_eq_add_succ]
  intro n
  refine ⟨silentState n, ?_, rfl, rfl, rfl, rfl, rfl, rfl, rfl, rfl, BitVec.toNat_ofNat .., rfl, rfl⟩
  have hzero : silentState 0 = State.reset := rfl
  rw [← hzero, hrun, Nat.zero_add]

/-! ### The bounds of the correlator (41_demodulator.md R124) -/

/-- A sum of products of 16-bit samples and template entries: each product is at most `2^22` in magnitude. -/
theorem dot_bounds (win : List Half) (tm : List Int) (h : ∀ v ∈ tm, -128 ≤ v ∧ v ≤ 127) :
    |dot win tm| ≤ win.length * 4194304 := by
  induction win generalizing tm with
  | nil => simp [dot]
  | cons x xs ih =>
    cases tm with
    | nil => simp [dot]
    | cons t ts =>
      obtain ⟨⟨hlo, hhi⟩, hts⟩ := List.forall_mem_cons.1 h
      have hx : |x.toInt| ≤ 32768 := abs_le.2 ⟨BitVec.le_toInt x, (BitVec.toInt_lt (x := x)).le⟩
      have ht : |t| ≤ 128 := abs_le.2 ⟨hlo, by omega⟩
      have hprod : |x.toInt * t| ≤ 32768 * 128 := by
        rw [abs_mul]
        exact mul_le_mul hx ht (abs_nonneg t) (by decide)
      calc |dot (x :: xs) (t :: ts)|
        _ ≤ |x.toInt * t| + |dot xs ts| := abs_add_le _ _
        _ ≤ 32768 * 128 + xs.length * 4194304 := add_le_add hprod (ih ts hts)
        _ = (x :: xs).length * 4194304 := by rw [List.length_cons]; push_cast; ring

/-- A tone's energy is a sum of two squares, of sums below `2^30` in magnitude. -/
theorem toneEnergy_bounds {win : List Half} {tI tQ : List Int} (hI : |dot win tI| < 2 ^ 30)
    (hQ : |dot win tQ| < 2 ^ 30) : 0 ≤ toneEnergy win tI tQ ∧ toneEnergy win tI tQ < 2 ^ 61 := by
  have hsq (a : Int) (ha : |a| < 2 ^ 30) : 0 ≤ a * a ∧ a * a < 2 ^ 60 := by
    refine ⟨mul_self_nonneg a, ?_⟩
    rw [← abs_mul_abs_self]
    exact mul_lt_mul'' ha ha (abs_nonneg a) (abs_nonneg a)
  have := hsq _ hI
  have := hsq _ hQ
  rw [toneEnergy]
  omega

/-- Settles O31: 192 products of at most `2^22` stay below `2^30`, and so the energies below `2^61`. -/
theorem correlatorFitsSixtyFourBits : Obligations.CorrelatorFitsSixtyFourBits := by
  intro c dl hwf hlen
  have hcorr := Cfg.corrlen_le_of_wf hwf
  have hdot : ∀ tm ∈ [c.tmI, c.tmQ, c.tsI, c.tsQ], |dot (window dl) tm| < 2 ^ 30 := by
    intro tm htm
    have hle := dot_bounds (window dl) tm (Cfg.wf_templates hwf tm htm).2
    rw [window, List.length_reverse, hlen] at hle
    rw [window]
    omega
  obtain ⟨hm0, hm⟩ := toneEnergy_bounds (hdot c.tmI (by simp)) (hdot c.tmQ (by simp))
  obtain ⟨hs0, hs⟩ := toneEnergy_bounds (hdot c.tsI (by simp)) (hdot c.tsQ (by simp))
  refine ⟨fun tm htm => abs_lt.1 (hdot tm htm), ?_⟩
  rw [correlation]
  omega

/-! ### `DESYNC` (41_demodulator.md R141) -/

/-- Settles O40: with `SYNCED` 1 or 0, by the definition of `DESYNC`. -/
theorem desyncDropsByteSync : Obligations.DesyncDropsByteSync := by
  refine ⟨fun s => ?_, by decide⟩
  rw [exec_desync, execDesync]
  cases s.demod.synced with
  | true => rfl
  | false => rfl

end Sys2Proof.Machine
end

section
/-! SUPPORT. The invariants of the demodulator context and of the whole block: what each operation keeps, and so what
every step keeps (10_state.md R26, R27, R43). -/

namespace Sys2Proof.Machine

/-! ### `SYNCED` and `BITCNT` (10_state.md R26, R27) -/

/-- Only a write to `DFLG` writes `SYNCED` and `BITCNT` (40_system_ops.md R102). -/
theorem demodWrite_sync_of_ne {r : Reg} (hr : r ≠ .dflg) (c : Cfg) (v : Half) (d : Demod) :
    (demodWrite c r v d).synced = d.synced ∧ (demodWrite c r v d).bitcnt = d.bitcnt := by
  cases r with
  | dflg => exact absurd rfl hr
  | _ => exact ⟨rfl, rfl⟩

/-- The selector of `DFLG` is 0x13 (20_memory.md R61). -/
theorem eq_dflg_selector {c : Cfg} {sel : Byte} (h : regOf c sel = some .dflg) : sel = 0x13 :=
  (regOf_some h).1.symm

/-- An operation that clears `SYNCED` is `RST`, `DRST`, `DESYNC` or a write of `DFLG` (10_state.md R27). -/
theorem exec_clears_synced {i : Instr} {s t : State} (h : exec i s = .next t) (h1 : s.demod.synced = true)
    (h0 : t.demod.synced = false) :
    i = .rst ∨ i = .drst ∨ i = .desync ∨ ∃ v : Half, i = .wrr 0x13 v ∧ v.getLsbD 0 = false := by
  rcases exec_demod_cases h with hd | ⟨x, _, hd⟩ | ⟨rfl | rfl, _⟩ | ⟨rfl, _⟩ | ⟨sel, v, r, rfl, hreg, _, hd⟩
  · rw [hd, h1] at h0
    cases h0
  · rw [hd, demodSample_keeps_synced _ _ h1] at h0
    cases h0
  · exact .inl rfl
  · exact .inr (.inl rfl)
  · exact .inr (.inr (.inl rfl))
  · rw [hd] at h0
    by_cases hr : r = .dflg
    · subst hr
      obtain rfl := eq_dflg_selector hreg
      exact .inr (.inr (.inr ⟨v, rfl, h0⟩))
    · rw [(demodWrite_sync_of_ne hr ..).1, h1] at h0
      cases h0

/-- Settles O41: an illegal word and an idle step leave the context, and an operation that clears `SYNCED` is one of the
causes. -/
theorem syncIsLostOnlyOnRequest : Obligations.SyncIsLostOnlyOnRequest := by
  intro s t h h1 h0
  rcases step_by_next h with ⟨_, rfl⟩ | ⟨hpin, _⟩ | ⟨i, hi, he⟩ | ⟨_, w, rfl⟩
  · rw [h1] at h0
    cases h0
  · exact .inl hpin
  · rcases exec_clears_synced he h1 h0 with rfl | rfl | rfl | ⟨v, rfl, hv⟩
    · exact .inr (.inl hi)
    · exact .inr (.inr (.inl hi))
    · exact .inr (.inr (.inr (.inl hi)))
    · exact .inr (.inr (.inr (.inr ⟨v, hi, hv⟩)))
  · rw [raiseFault_demod, accepted, h1] at h0
    cases h0

/-- An operation other than a write of `DFLG` keeps `BITCNT` 0 while `SYNCED` is 0 (10_state.md R26). -/
theorem exec_keeps_idle_bitcnt {i : Instr} {s t : State} (h : exec i s = .next t)
    (hs : s.demod.synced = false → s.demod.bitcnt = 0) (hi : ∀ v, i ≠ .wrr 0x13 v) :
    t.demod.synced = false → t.demod.bitcnt = 0 := by
  rcases exec_demod_cases h with hd | ⟨x, _, hd⟩ | ⟨_, hd⟩ | ⟨_, hd⟩ | ⟨sel, v, r, rfl, hreg, _, hd⟩
  · rwa [hd]
  · rw [hd]
    exact demodSample_keeps_idle_bitcnt _ _ hs
  · rw [hd]
    exact fun _ => rfl
  · rw [hd]
    exact fun _ => rfl
  · have hr : r ≠ .dflg := by
      rintro rfl
      exact hi v (by rw [eq_dflg_selector hreg])
    obtain ⟨hsy, hbc⟩ := demodWrite_sync_of_ne hr s.cfg v s.demod
    rwa [hd, hsy, hbc]

/-- Settles O42: a reset clears both, an illegal word and an idle step leave both, and an operation keeps the relation. -/
theorem bitCountIsZeroWhileSearching : Obligations.BitCountIsZeroWhileSearching := by
  intro s t h hs hnot
  rcases step_by_next h with ⟨_, rfl⟩ | ⟨_, rfl⟩ | ⟨i, hi, he⟩ | ⟨_, w, rfl⟩
  · exact hs
  · exact fun _ => rfl
  · exact exec_keeps_idle_bitcnt he hs (fun v hv => hnot v (hv ▸ hi))
  · rwa [raiseFault_demod]

/-! ### The ranges of the context (10_state.md R43) -/

/-- The cleared context is in its ranges. -/
theorem cleared_legal {c : Cfg} (h : c.wf = true) : (Demod.cleared c).Legal c := by
  obtain ⟨_, _, hsub, _⟩ := Cfg.wf_demod h
  exact ⟨Int.neg_nonpos_of_nonneg (Int.natCast_nonneg _), Int.natCast_nonneg _, hsub, List.length_replicate⟩

/-- A correlation step keeps the ranges: the vote and the latch keep the integrator's bound. -/
theorem stepWith_legal {c : Cfg} (f : Int) {d : Demod} (h : d.Legal c) : (stepWith c f d).1.Legal c := by
  obtain ⟨hlo, hhi, hsub, hlen⟩ := h
  obtain ⟨_, hdl, hsc, _, _, _, hint, _⟩ := stepWith_frame c f d
  obtain ⟨hvlo, hvhi⟩ := vote_bounds c f d.int hlo hhi
  rw [Demod.Legal, hdl, hsc, hint]
  split
  · obtain ⟨halo, hahi⟩ := afterLatch_bounds c _ hvlo hvhi
    exact ⟨halo, hahi, hsub, hlen⟩
  · exact ⟨hvlo, hvhi, hsub, hlen⟩

/-- `DSAMP` keeps the ranges: the stride counter stops short of `SUBSAMP`, and the delay line keeps its length. -/
theorem demodSample_legal {c : Cfg} (x : Half) {d : Demod} (h : d.Legal c) : (demodSample c x d).1.Legal c := by
  obtain ⟨hlo, hhi, hsub, hlen⟩ := h
  have hlen' : (shiftIn x d.dl).length = c.corrlen := (shiftIn_length x d.dl).trans hlen
  rcases demodSample_cases c x d with ⟨hne, he⟩ | ⟨_, he⟩
  · rw [he]
    exact ⟨hlo, hhi, by show d.subcnt + 1 < c.subsamp; omega, hlen'⟩
  · rw [he]
    exact stepWith_legal _ ⟨hlo, hhi, by show 0 < c.subsamp; omega, hlen'⟩

/-- `clamp` answers a value in the range (00_scope.md R13). -/
theorem clamp_bounds (v : Int) {lo hi : Int} (h : lo ≤ hi) : lo ≤ clamp v lo hi ∧ clamp v lo hi ≤ hi :=
  ⟨le_max_left .., max_le h (min_le_left ..)⟩

/-- A write keeps the ranges: `DINT` is clamped, `DSUB` reduced, a delay line entry replaced (40_system_ops.md R102). -/
theorem demodWrite_legal {c : Cfg} (hc : c.wf = true) (r : Reg) (v : Half) {d : Demod} (h : d.Legal c) :
    (demodWrite c r v d).Legal c := by
  obtain ⟨_, _, hsub1, _⟩ := Cfg.wf_demod hc
  obtain ⟨hlo, hhi, hsub, hlen⟩ := h
  cases r with
  | dint =>
    obtain ⟨hclo, hchi⟩ := clamp_bounds v.toInt (lo := -(c.intMax : Int)) (hi := c.intMax) (by omega)
    exact ⟨hclo, hchi, hsub, hlen⟩
  | dsub => exact ⟨hlo, hhi, Nat.mod_lt _ hsub1, hlen⟩
  | dl i => exact ⟨hlo, hhi, hsub, List.length_set.trans hlen⟩
  | _ => exact ⟨hlo, hhi, hsub, hlen⟩

/-- Every operation keeps the ranges of the context (10_state.md R43). -/
theorem exec_demod_legal {i : Instr} {s t : State} (hc : s.cfg.wf = true) (hs : s.demod.Legal s.cfg)
    (h : exec i s = .next t) : t.demod.Legal s.cfg := by
  rcases exec_demod_cases h with hd | ⟨x, _, hd⟩ | ⟨_, hd⟩ | ⟨_, hd⟩ | ⟨_, v, r, _, _, _, hd⟩
  · rwa [hd]
  · rw [hd]
    exact demodSample_legal _ hs
  · rw [hd]
    exact cleared_legal hc
  · rwa [hd]
  · rw [hd]
    exact demodWrite_legal hc r v hs

/-! ### The range of `ERRCODE` (10_state.md R43) -/

/-- A fault records its own code, or keeps the first one (60_exceptions.md R181). -/
theorem raiseFault_errcode_le {s : State} (h : s.errcode.toNat ≤ 3) (code : FaultCode) (w : Word) :
    (raiseFault code w s).errcode.toNat ≤ 3 := by
  rw [raiseFault_errcode]
  split
  · exact h
  · cases code <;> decide

/-- Only a fault and `RST` write `ERRCODE` (10_state.md R35). -/
theorem exec_errcode_of_not_fault {i : Instr} {s t : State} (hf : opFaults s.cfg i = false)
    (h : exec i s = .next t) : t.errcode = s.errcode ∨ t.errcode = 0 := by
  cases i with
  | rdr sel =>
    rcases execRdr_cases h with ⟨hreg, _⟩ | ⟨_, _, rfl⟩
    · simp [opFaults, hreg] at hf
    · exact .inl rfl
  | wrr sel v =>
    rcases execWrr_cases h with ⟨hreg, _⟩ | ⟨_, hreg, hro, _⟩ | ⟨_, _, _, rfl⟩
    · simp [opFaults, hreg] at hf
    · simp [opFaults, hreg, hro] at hf
    · exact .inl rfl
  | dsamp x =>
    obtain rfl := Host.Outcome.next.inj ((exec_dsamp_eq x s).symm.trans h)
    exact .inl rfl
  | desync =>
    obtain rfl := Host.Outcome.next.inj ((desyncDropsByteSync.1 s).symm.trans h)
    exact .inl rfl
  | rst =>
    obtain rfl := Host.Outcome.next.inj h
    exact .inr rfl
  | _ =>
    obtain rfl := Host.Outcome.next.inj h
    exact .inl rfl

theorem exec_errcode_le {i : Instr} {s t : State} (hs : s.errcode.toNat ≤ 3) (h : exec i s = .next t) :
    t.errcode.toNat ≤ 3 := by
  cases hf : opFaults s.cfg i with
  | true =>
    obtain ⟨code, _, he⟩ := exec_of_faults hf
    obtain rfl := Host.Outcome.next.inj (he.symm.trans h)
    exact raiseFault_errcode_le hs code _
  | false =>
    rcases exec_errcode_of_not_fault hf h with he | he
    · rwa [he]
    · rw [he]
      decide

/-! ### The invariant -/

/-- Every operation keeps the invariant (10_state.md R43). -/
theorem exec_inv {i : Instr} {s t : State} (hs : s.Inv) (h : exec i s = .next t) : t.Inv := by
  obtain ⟨hc, hd, he⟩ := hs
  have hcfg := exec_cfg h
  exact ⟨hcfg ▸ hc, hcfg ▸ exec_demod_legal hc hd h, exec_errcode_le he h⟩

/-- The state of any legal configuration after reset meets the invariant (10_state.md R42, R43). -/
theorem resetRegisters_inv {s : State} (hc : s.cfg.wf = true) : (resetRegisters s).Inv :=
  ⟨hc, cleared_legal hc, Nat.zero_le 3⟩

/-- Settles O50: an idle step, a reset, an operation and an illegal word each keep the invariant. -/
theorem stepKeepsTheInvariant : Obligations.StepKeepsTheInvariant := by
  intro s t hs h
  rcases step_by_next h with ⟨_, rfl⟩ | ⟨_, rfl⟩ | ⟨i, _, he⟩ | ⟨_, w, rfl⟩
  · exact hs
  · exact resetRegisters_inv (s := accepted s) hs.1
  · exact exec_inv (s := accepted s) hs he
  · obtain ⟨hc, hd, he⟩ := hs
    refine ⟨by rwa [raiseFault_cfg], by rwa [raiseFault_cfg, raiseFault_demod], ?_⟩
    exact raiseFault_errcode_le (s := accepted s) he _ _

/-- Profile `P0` meets every constraint of 00_scope.md R8. -/
theorem P0_wf : Cfg.P0.wf = true := by decide +kernel

/-- Settles O51: profile `P0` is legal, and the reset registers are in their ranges. -/
theorem resetMeetsTheInvariant : Obligations.ResetMeetsTheInvariant :=
  ⟨P0_wf, cleared_legal P0_wf, Nat.zero_le 3⟩

end Sys2Proof.Machine
end

section
/-! SUPPORT. The register port as a memory (20_memory.md section 3): every register after `RST`, the fields of a
register's pattern, what a register reads after a write to it and after a write to another. -/

namespace Sys2Proof.Machine

/-! ### Every selector after `RST` -/

/-- Every register reads 0 after `RST` (10_state.md R42). -/
theorem regRead_resetRegisters (r : Reg) (s : State) : regRead r (resetRegisters s) = 0 := by
  cases r with
  | dl i =>
    rw [regRead, resetRegisters_demod, cleared_dl, List.getD_eq_getElem?_getD, List.getElem?_replicate]
    split <;> rfl
  | mphl | mphh => exact BitVec.extractLsb'_zero
  | _ => rfl

/-- A response is no register (40_system_ops.md R101). -/
theorem regRead_respond (r : Reg) (a : Response) (s : State) : regRead r (respond a s) = regRead r s := by
  cases r <;> rfl

/-- Settles O14: a mapped selector names a register, and every register reads 0 after `RST`. -/
theorem everySelectorReadsZeroAfterRst : Obligations.EverySelectorReadsZeroAfterRst := by
  intro s sel hwf hsel
  obtain ⟨r, hreg⟩ := (selectorMapped_iff (Cfg.corrlen_le_of_wf hwf) sel).1 hsel
  refine ⟨_, exec_rst s, exec_rdr_eq_answered (r := r) hreg ?_⟩
  rw [regRead_respond, regRead_resetRegisters]

/-! ### The fields of a register's pattern (40_system_ops.md R101) -/

/-- The lowest `n` bits of a pattern, widened again, are the pattern under a mask. -/
theorem zeroExtend_extractLsb'_eq_and (v : Half) (n : Nat) :
    (v.extractLsb' 0 n).zeroExtend 16 = v &&& BitVec.ofNat 16 (2 ^ n - 1) := by
  refine BitVec.eq_of_getLsbD_eq fun k hk => ?_
  rw [BitVec.getLsbD_and, BitVec.getLsbD_ofNat, Nat.testBit_two_pow_sub_one]
  simp [hk, Bool.and_comm]

/-- Bit 0 as a register of its own (10_state.md R32). -/
theorem ofNat_bitNat_eq_and (v : Half) : BitVec.ofNat 16 (bitNat (v.getLsbD 0)) = v &&& 0x0001 := by
  refine BitVec.eq_of_toNat_eq ?_
  have hbit : (v.getLsbD 0).toNat = v.toNat % 2 := by
    rw [BitVec.getLsbD, Nat.testBit_zero]
    rcases Nat.mod_two_eq_zero_or_one v.toNat with h | h <;> simp [h]
  rw [bitNat_eq_toNat, hbit, BitVec.toNat_ofNat, BitVec.toNat_and]
  exact (Nat.mod_eq_of_lt (by omega)).trans (Nat.and_one_is_mod _).symm

/-- `DFLG` bit by bit (10_state.md R45). -/
theorem dflgOf_getLsbD (d : Demod) {k : Nat} (hk : k < 16) :
    (dflgOf d).getLsbD k =
      if k = 0 then d.synced else if k = 1 then d.cprev else decide (4 ≤ k) && d.bitcnt.getLsbD (k - 4) := by
  have hall : ∀ (synced cprev : Bool) (bitcnt : BitVec 3), ∀ k < 16,
      (BitVec.ofNat 16 (bitNat synced + 2 * bitNat cprev + 16 * bitcnt.toNat)).getLsbD k =
        if k = 0 then synced else if k = 1 then cprev else decide (4 ≤ k) && bitcnt.getLsbD (k - 4) := by decide
  exact hall d.synced d.cprev d.bitcnt k hk

/-- The flags' fields, packed again, are the written pattern under a mask (10_state.md R45). -/
theorem dflgOf_demodWrite (c : Cfg) (v : Half) (d : Demod) : dflgOf (demodWrite c .dflg v d) = v &&& 0x0073 := by
  refine BitVec.eq_of_getLsbD_eq fun k hk => ?_
  rw [dflgOf_getLsbD _ hk, BitVec.getLsbD_and]
  interval_cases k <;> simp [demodWrite]

theorem regRead_ctrl_getLsbD (s : State) : (regRead .ctrl s).getLsbD 0 = s.demod.hold := by
  rw [regRead]
  cases s.demod.hold <;> rfl

theorem regRead_dflg_fields (s : State) :
    (regRead .dflg s).getLsbD 0 = s.demod.synced ∧ (regRead .dflg s).getLsbD 1 = s.demod.cprev ∧
      (regRead .dflg s).extractLsb' 4 3 = s.demod.bitcnt := by
  have hall : ∀ (synced cprev : Bool) (bitcnt : BitVec 3),
      let v := BitVec.ofNat 16 (bitNat synced + 2 * bitNat cprev + 16 * bitcnt.toNat)
      v.getLsbD 0 = synced ∧ v.getLsbD 1 = cprev ∧ v.extractLsb' 4 3 = bitcnt := by decide
  exact hall s.demod.synced s.demod.cprev s.demod.bitcnt

theorem regRead_dsr_extractLsb' (s : State) : (regRead .dsr s).extractLsb' 0 8 = s.demod.sr := by
  rw [regRead]
  exact (BitVec.extractLsb'_setWidth_of_le (by omega)).trans BitVec.extractLsb'_eq_self

/-- The integrator fits its register, so it is the register as a signed number (10_state.md R24). -/
theorem regRead_dint_toInt {s : State} (h : s.Inv) : (regRead .dint s).toInt = s.demod.int := by
  obtain ⟨hwf, ⟨hlo, hhi, _⟩, _⟩ := h
  obtain ⟨_, _, _, _, _, _, _, hmax, _⟩ := Cfg.wf_demod hwf
  refine BitVec.toInt_ofInt_eq_self (by decide) ?_ ?_
  · show -32768 ≤ s.demod.int
    omega
  · show s.demod.int < 32768
    omega

/-- The stride counter fits its register (10_state.md R30). -/
theorem regRead_dsub_toNat {s : State} (h : s.Inv) : (regRead .dsub s).toNat = s.demod.subcnt := by
  obtain ⟨hwf, ⟨_, _, hsub, _⟩, _⟩ := h
  obtain ⟨_, hcorr, _, hle, _⟩ := Cfg.wf_demod hwf
  rw [regRead, BitVec.toNat_ofNat]
  omega

/-! ### A register after a write to it (40_system_ops.md R101, R102) -/

/-- The value a register holds after `v` is written to it, as a read shows it: masked, clamped or reduced. -/
def legalValue (c : Cfg) (v : Half) : Reg → Half
  | .ctrl => v &&& 0x0001
  | .ien => v &&& 0x000F
  | .dint => u16 (clamp v.toInt (-(c.intMax : Int)) c.intMax)
  | .dsr => v &&& 0x00FF
  | .dflg => v &&& 0x0073
  | .dsub => BitVec.ofNat 16 (v.toNat % c.subsamp)
  | _ => v

/-- The register is a cell of the register port: it holds what is written to it, unlike `EVT` and the read-only
registers, and an entry lies in the delay line. -/
def isCell (d : Demod) : Reg → Prop
  | .evt | .errcode | .errinfo => False
  | .dl i => i < d.dl.length
  | _ => True

/-- A cell reads back the value written, made legal for it. -/
theorem regRead_regWrite_same {r : Reg} {s : State} (v : Half) (hr : isCell s.demod r) :
    regRead r (regWrite r v s) = legalValue s.cfg v r := by
  cases r with
  | evt | errcode | errinfo => exact hr.elim
  | ctrl => exact ofNat_bitNat_eq_and v
  | ien => exact zeroExtend_extractLsb'_eq_and v 4
  | dsr => exact zeroExtend_extractLsb'_eq_and v 8
  | dflg => exact dflgOf_demodWrite s.cfg v s.demod
  | mphl => exact BitVec.extractLsb'_append_eq_right
  | mphh => exact BitVec.extractLsb'_append_eq_left
  | dl i =>
    have hi : i < s.demod.dl.length := hr
    show (s.demod.dl.set i v).getD i 0 = v
    simp [hi]
  | _ => rfl

/-- A write leaves every other register alone, also the other half of `MPH` (20_memory.md section 3). -/
theorem regRead_regWrite_of_ne {a b : Reg} (h : a ≠ b) (v : Half) (s : State) :
    regRead b (regWrite a v s) = regRead b s := by
  cases b with
  | mphl =>
    cases a with
    | mphl => exact absurd rfl h
    | mphh => exact BitVec.extractLsb'_append_eq_right
    | _ => rfl
  | mphh =>
    cases a with
    | mphh => exact absurd rfl h
    | mphl => exact BitVec.extractLsb'_append_eq_left
    | _ => rfl
  | dl j =>
    cases a with
    | dl i =>
      have hij : i ≠ j := fun hij => h (congrArg Reg.dl hij)
      show (s.demod.dl.set i v).getD j 0 = s.demod.dl.getD j 0
      simp [hij]
    | _ => rfl
  | _ => cases a <;> first | rfl | exact absurd rfl h

/-- The selector of a delay line entry is 0x40 or more (20_memory.md R61). -/
theorem selectorOf_dl_ne {c : Cfg} (hc : c.wf = true) {i : Nat} (hi : i < c.corrlen) {k : Byte} (hk : k.toNat < 0x40) :
    selectorOf (.dl i) ≠ k := by
  have hcorr := Cfg.corrlen_le_of_wf hc
  rintro rfl
  rw [selectorOf, BitVec.toNat_ofNat] at hk
  omega

/-- The legal value by selector, as 40_system_ops.md R102 lists it. -/
theorem legalValue_eq_of_regOf {c : Cfg} (hc : c.wf = true) {sel : Byte} {r : Reg} (h : regOf c sel = some r)
    (v : Half) :
    legalValue c v r =
      if sel = 0x00 then v &&& 0x0001
      else if sel = 0x02 then v &&& 0x000F
      else if sel = 0x11 then BitVec.ofInt 16 (max (-(c.intMax : Int)) (min c.intMax v.toInt))
      else if sel = 0x12 then v &&& 0x00FF
      else if sel = 0x13 then v &&& 0x0073
      else if sel = 0x14 then BitVec.ofNat 16 (v.toNat % c.subsamp)
      else v := by
  obtain ⟨hsel, hdl⟩ := regOf_some h
  subst hsel
  cases r with
  | dl i =>
    have hne {k : Byte} (hk : k.toNat < 0x40) : selectorOf (.dl i) ≠ k := selectorOf_dl_ne hc (hdl i rfl) hk
    rw [if_neg (hne (by decide)), if_neg (hne (by decide)), if_neg (hne (by decide)), if_neg (hne (by decide)),
      if_neg (hne (by decide)), if_neg (hne (by decide))]
    rfl
  | _ => rfl

/-- A mapped selector other than those of `EVT`, `ERRCODE` and `ERRINFO` names a cell (20_memory.md R61). -/
theorem isCell_of_regOf {s : State} (hs : s.Inv) {sel : Byte} {r : Reg} (h : regOf s.cfg sel = some r)
    (h1 : sel ≠ 0x01) (h3 : sel ≠ 0x03) (h4 : sel ≠ 0x04) : isCell s.demod r := by
  obtain ⟨_, ⟨_, _, _, hlen⟩, _⟩ := hs
  obtain ⟨hsel, hdl⟩ := regOf_some h
  subst hsel
  cases r with
  | evt => exact absurd rfl h1
  | errcode => exact absurd rfl h3
  | errinfo => exact absurd rfl h4
  | dl i => exact (hdl i rfl).trans_eq hlen.symm
  | _ => trivial

theorem readOnly_of_isCell {d : Demod} {r : Reg} (h : isCell d r) : readOnly r = false := by
  cases r with
  | errcode | errinfo => exact h.elim
  | _ => rfl

/-- Settles O20: the selector names a cell, and a cell reads back the legal value. -/
theorem writeThenReadGivesTheLegalValue : Obligations.WriteThenReadGivesTheLegalValue := by
  intro s sel v hs hsel h1 h3 h4
  obtain ⟨r, hreg⟩ := (selectorMapped_iff (Cfg.corrlen_le_of_wf hs.1) sel).1 hsel
  have hcell := isCell_of_regOf hs hreg h1 h3 h4
  refine ⟨_, execWrr_writable v hreg (readOnly_of_isCell hcell), exec_rdr_eq_answered (r := r) hreg ?_⟩
  rw [regRead_respond, regRead_regWrite_same v hcell, legalValue_eq_of_regOf hs.1 hreg]

/-- Settles O21: different selectors name different registers. -/
theorem writeLeavesOtherSelectorsAlone : Obligations.WriteLeavesOtherSelectorsAlone := by
  intro s t a b v rb _ hf h hab hb
  rcases execWrr_cases h with ⟨ha, _⟩ | ⟨ra, ha, hro, _⟩ | ⟨ra, ha, _, rfl⟩
  · simp [opFaults, ha] at hf
  · simp [opFaults, ha, hro] at hf
  · have hne : ra ≠ rb := by
      rintro rfl
      exact hab ((regOf_some ha).1.symm.trans (regOf_some hb).1)
    refine exec_rdr_eq_answered (r := rb) hb ?_
    rw [regRead_respond, regRead_regWrite_of_ne hne]

end Sys2Proof.Machine
end

section
/-! SUPPORT. Programs over the register port: restoring a saved context (70_reset_and_hazards.md R212), the fault record
and its acknowledge (60_exceptions.md section 2), and operations on disjoint registers (20_memory.md R70). -/

namespace Sys2Proof.Machine

/-! ### The registers of the context (10_state.md R38) -/

theorem mem_contextRegs_iff (c : Cfg) (r : Reg) :
    r ∈ contextRegs c ↔ contextReg r = true ∧ ∀ i, r = .dl i → i < c.corrlen := by
  cases r <;> simp [contextRegs, contextReg]

/-- The selector of a context register names it (20_memory.md R61). -/
theorem regOf_selectorOf_context {c : Cfg} (hc : c.wf = true) {r : Reg} (hr : r ∈ contextRegs c) :
    regOf c (selectorOf r) = some r := by
  obtain ⟨hctx, hdl⟩ := (mem_contextRegs_iff c r).1 hr
  cases r with
  | dl i => exact regOf_selectorOf_dl (Cfg.corrlen_le_of_wf hc) (hdl i rfl)
  | evt | ien | errcode | errinfo | mphl | mphh => cases hctx
  | _ => rfl

theorem readOnly_of_contextReg {r : Reg} (h : contextReg r = true) : readOnly r = false := by
  cases r with
  | errcode | errinfo => cases h
  | _ => rfl

/-- A write to a context register writes the context alone (20_memory.md R70). -/
theorem regWrite_context {r : Reg} (h : contextReg r = true) (v : Half) (s : State) :
    regWrite r v s = { s with demod := demodWrite s.cfg r v s.demod } := by
  cases r with
  | evt | ien | errcode | errinfo | mphl | mphh => cases h
  | _ => rfl

/-- A context register reads the context alone (20_memory.md R70). -/
theorem regRead_context_congr {r : Reg} (h : contextReg r = true) {s u : State} (hd : s.demod = u.demod) :
    regRead r s = regRead r u := by
  cases r with
  | evt | ien | errcode | errinfo | mphl | mphh => cases h
  | _ => simp only [regRead, hd]

/-! ### Restoring a context (70_reset_and_hazards.md R212) -/

/-- A value read from a legal context is legal, so writing it makes the register read it (20_memory.md section 3). -/
theorem regRead_regWrite_saved {s u : State} (hs : s.Inv) (hu : u.Inv) (hcfg : u.cfg = s.cfg) {r : Reg}
    (hr : r ∈ contextRegs s.cfg) : regRead r (regWrite r (regRead r s) u) = regRead r s := by
  obtain ⟨hctx, hdl⟩ := (mem_contextRegs_iff s.cfg r).1 hr
  obtain ⟨_, ⟨_, _, _, hlen⟩, _⟩ := hu
  cases r with
  | evt | ien | errcode | errinfo | mphl | mphh => cases hctx
  | ctrl => exact congrArg (fun b => BitVec.ofNat 16 (bitNat b)) (regRead_ctrl_getLsbD s)
  | dint =>
    have ⟨_, ⟨hlo, hhi, _⟩, _⟩ := hs
    show u16 (clamp (regRead .dint s).toInt (-(u.cfg.intMax : Int)) u.cfg.intMax) = u16 s.demod.int
    rw [regRead_dint_toInt hs, hcfg, clamp, min_eq_right hhi, max_eq_right hlo]
  | dsr => exact congrArg (BitVec.zeroExtend 16) (regRead_dsr_extractLsb' s)
  | dflg =>
    obtain ⟨hsy, hcp, hbc⟩ := regRead_dflg_fields s
    show BitVec.ofNat 16 (bitNat ((regRead .dflg s).getLsbD 0) + 2 * bitNat ((regRead .dflg s).getLsbD 1) +
      16 * ((regRead .dflg s).extractLsb' 4 3).toNat) = dflgOf s.demod
    rw [hsy, hcp, hbc, dflgOf]
  | dsub =>
    have ⟨_, ⟨_, _, hsub, _⟩, _⟩ := hs
    show BitVec.ofNat 16 ((regRead .dsub s).toNat % u.cfg.subsamp) = BitVec.ofNat 16 s.demod.subcnt
    rw [regRead_dsub_toNat hs, hcfg, Nat.mod_eq_of_lt hsub]
  | dl i =>
    exact regRead_regWrite_same _ (show i < u.demod.dl.length by rw [hlen, hcfg]; exact hdl i rfl)
  | dph | dtph => rfl

theorem demod_eq_of_fields {d e : Demod} (hold : d.hold = e.hold) (ph : d.ph = e.ph) (int : d.int = e.int)
    (sr : d.sr = e.sr) (bitcnt : d.bitcnt = e.bitcnt) (synced : d.synced = e.synced) (cprev : d.cprev = e.cprev)
    (tph : d.tph = e.tph) (subcnt : d.subcnt = e.subcnt) (dl : d.dl = e.dl) : d = e := by
  cases d
  cases e
  exact (Demod.mk.injEq ..).mpr ⟨hold, ph, int, sr, bitcnt, synced, cprev, tph, subcnt, dl⟩

/-- The context is what its registers read: two legal contexts that read alike are equal (10_state.md R38). -/
theorem demod_eq_of_regRead {s u : State} (hs : s.Inv) (hu : u.Inv) (hcfg : u.cfg = s.cfg)
    (h : ∀ r ∈ contextRegs s.cfg, regRead r u = regRead r s) : u.demod = s.demod := by
  have hr (r : Reg) (hr : contextReg r = true) (hdl : ∀ i, r = .dl i → i < s.cfg.corrlen) :
      regRead r u = regRead r s := h r ((mem_contextRegs_iff s.cfg r).2 ⟨hr, hdl⟩)
  have hhold : u.demod.hold = s.demod.hold := by
    rw [← regRead_ctrl_getLsbD, hr .ctrl rfl (by simp), regRead_ctrl_getLsbD]
  have hph : u.demod.ph = s.demod.ph := hr .dph rfl (by simp)
  have hint : u.demod.int = s.demod.int := by
    rw [← regRead_dint_toInt hu, hr .dint rfl (by simp), regRead_dint_toInt hs]
  have hsr : u.demod.sr = s.demod.sr := by
    rw [← regRead_dsr_extractLsb', hr .dsr rfl (by simp), regRead_dsr_extractLsb']
  obtain ⟨husy, hucp, hubc⟩ := regRead_dflg_fields u
  obtain ⟨hssy, hscp, hsbc⟩ := regRead_dflg_fields s
  rw [hr .dflg rfl (by simp)] at husy hucp hubc
  have hsub : u.demod.subcnt = s.demod.subcnt := by
    rw [← regRead_dsub_toNat hu, hr .dsub rfl (by simp), regRead_dsub_toNat hs]
  have htph : u.demod.tph = s.demod.tph := hr .dtph rfl (by simp)
  have hdl : u.demod.dl = s.demod.dl := by
    obtain ⟨_, ⟨_, _, _, hslen⟩, _⟩ := hs
    obtain ⟨_, ⟨_, _, _, hulen⟩, _⟩ := hu
    refine List.ext_getElem (by rw [hulen, hslen, hcfg]) fun i hiu his => ?_
    have hi := hr (.dl i) rfl (by rintro _ ⟨⟩; exact hslen ▸ his)
    simpa [regRead, hiu, his] using hi
  exact demod_eq_of_fields hhold hph hint hsr (hubc.symm.trans hsbc) (husy.symm.trans hssy) (hucp.symm.trans hscp)
    htph hsub hdl

/-- Writing saved values, register by register, leaves an invariant state in which every register written, and every
register that read as saved before, reads as saved; nothing outside the context changes but the responses. -/
theorem execAll_restoreOps {s : State} (hs : s.Inv) (order : List Reg) (u : State) (hu : u.Inv) (hcfg : u.cfg = s.cfg)
    (hmem : ∀ r ∈ order, r ∈ contextRegs s.cfg) :
    ∃ t, execAll (restoreOps s order) u = .next t ∧ t.Inv ∧
      t = { u with demod := t.demod, responses := u.responses ++ List.replicate order.length (.ok 0) } ∧
      ∀ r, r ∈ order ∨ regRead r u = regRead r s → regRead r t = regRead r s := by
  induction order generalizing u with
  | nil => exact ⟨u, rfl, hu, by simp, fun r hr => hr.resolve_left (List.not_mem_nil)⟩
  | cons a l ih =>
    obtain ⟨ha, hl⟩ := List.forall_mem_cons.1 hmem
    obtain ⟨hctx, _⟩ := (mem_contextRegs_iff s.cfg a).1 ha
    have hreg : regOf u.cfg (selectorOf a) = some a := hcfg ▸ regOf_selectorOf_context hs.1 ha
    have hexec : exec (.wrr (selectorOf a) (regRead a s)) u = _ :=
      execWrr_writable (regRead a s) hreg (readOnly_of_contextReg hctx)
    obtain ⟨t, ht, hti, hteq, hread⟩ :=
      ih (respond (.ok 0) (regWrite a (regRead a s) u)) (exec_inv hu hexec) hcfg hl
    refine ⟨t, (execAll_cons hexec _).trans ht, hti, ?_, fun r hr => hread r ?_⟩
    · rw [hteq, regWrite_context hctx]
      simp [respond, List.replicate_succ]
    · rw [regRead_respond]
      by_cases har : a = r
      · subst har
        exact .inr (regRead_regWrite_saved hs hu hcfg ha)
      · rw [regRead_regWrite_of_ne har]
        exact hr.imp_left fun hr => (List.mem_cons.1 hr).resolve_left (Ne.symm har)

/-- Settles O22: after the last write every register of the context reads as saved, and that is the context. -/
theorem restoreGivesTheSavedSession : Obligations.RestoreGivesTheSavedSession := by
  intro s u order hs hu hcfg hperm
  obtain ⟨t, ht, hti, hteq, hread⟩ := execAll_restoreOps hs order u hu hcfg (fun r hr => hperm.mem_iff.1 hr)
  have htcfg : t.cfg = s.cfg := by rw [hteq]; exact hcfg
  have hdemod : t.demod = s.demod :=
    demod_eq_of_regRead hs hti htcfg (fun r hr => hread r (.inl (hperm.mem_iff.2 hr)))
  rw [ht, hteq, hdemod]

/-! ### The fault record (60_exceptions.md R181) -/

/-- With `EVT.ERR` 1 a fault is answered and records nothing. -/
theorem faulted_of_err {s : State} (h : s.evt.getLsbD 3 = true) (code : FaultCode) (number : Nat) (info : Half) :
    faulted code number info s = .next { s with responses := s.responses ++ [.err code] } := by
  have hevt : s.evt ||| 8#4 = s.evt := by
    revert h
    generalize s.evt = e
    revert e
    decide
  rw [faulted, h, hevt]
  rfl

/-- The state after `WRR EVT, 8`: `ERR` alone is cleared (40_system_ops.md R102). -/
def acknowledged (s : State) : State := { s with evt := s.evt &&& 7#4, responses := s.responses ++ [.ok 0] }

theorem exec_acknowledge (s : State) : exec (.wrr 0x01 8) s = .next (acknowledged s) :=
  exec_wrr_eq_of_regWrite (t := { s with evt := s.evt &&& 7#4 }) (regOf_evt _) rfl rfl

/-- After the acknowledge a fault records its code and its operation's high half, and sets `ERR` again. -/
theorem faulted_acknowledged {s : State} (h : s.evt.getLsbD 3 = true) (code : FaultCode) (number : Nat)
    (info : Half) :
    faulted code number info (acknowledged s) =
      .next { s with
        errcode := BitVec.ofNat 8 number
        errinfo := info
        responses := s.responses ++ [.ok 0, .err code] } := by
  obtain ⟨hclear, hset⟩ : (s.evt &&& 7#4).getLsbD 3 = false ∧ s.evt &&& 7#4 ||| 8#4 = s.evt := by
    revert h
    generalize s.evt = e
    revert e
    decide
  simp only [faulted, acknowledged, hclear, hset, List.append_assoc]
  rfl

/-- Settles O24: each listed operation is `faulted` in every state, which the acknowledge arms again. -/
theorem acknowledgeRearmsTheFaultRecord : Obligations.AcknowledgeRearmsTheFaultRecord := by
  intro s hwf herr acked kept recorded
  have hcorr := Cfg.corrlen_le_of_wf hwf
  have hboth {f : State → Host.Outcome State Fault Refusal} {code : FaultCode} {number : Nat} {info : Half}
      (hf : ∀ u, u.cfg = s.cfg → f u = faulted code number info u) :
      f s = kept code ∧ f acked = recorded code (BitVec.ofNat 8 number) info :=
    ⟨(hf s rfl).trans (faulted_of_err herr ..), (hf acked rfl).trans (faulted_acknowledged herr ..)⟩
  refine ⟨exec_acknowledge s, fun w hw => ?_, fun sel hsel => ?_, fun sel v hsel => ?_, fun sel v hsel => ?_⟩
  · exact hboth (f := runWord w) fun u _ => runWord_of_no_match hw u
  · exact hboth (f := exec (.rdr sel)) fun u hu => exec_rdr_unmapped (hu ▸ regOf_unmapped hcorr hsel)
  · exact hboth (f := exec (.wrr sel v)) fun u hu => exec_wrr_unmapped v (hu ▸ regOf_unmapped hcorr hsel)
  · exact hboth (f := exec (.wrr sel v)) fun u _ => exec_wrr_readOnlySelector hsel v u

/-! ### Operations on disjoint registers (20_memory.md R70) -/

/-- A phase register reads `MPH` alone. -/
theorem regRead_phase_congr {r : Reg} (h : phaseReg r = true) {s u : State} (hm : s.mph = u.mph) :
    regRead r s = regRead r u := by
  cases r with
  | mphl | mphh => simp only [regRead, hm]
  | _ => cases h

/-- A write to a half of `MPH` writes `MPH` alone. -/
theorem regWrite_phase {r : Reg} (h : phaseReg r = true) (v : Half) (s : State) :
    regWrite r v s = { s with mph := mphWrite r v s.mph } := by
  cases r with
  | mphl | mphh => rfl
  | _ => cases h

theorem readOnly_of_phaseReg {r : Reg} (h : phaseReg r = true) : readOnly r = false := by
  cases r with
  | errcode | errinfo => cases h
  | _ => rfl

/-- The state after an operation on the demodulator context: a new context, event bits, bytes and a response. -/
def afterDemod (d : Demod) (m : BitVec 4) (bytes : List Byte) (a : Half) (s : State) : State :=
  { s with demod := d, evt := s.evt ||| m, byteOut := s.byteOut ++ bytes, responses := s.responses ++ [.ok a] }

/-- The state after an operation on `MPH`: a new phase, samples and a response. -/
def afterPhase (p : Word) (samples : List Half) (a : Half) (s : State) : State :=
  { s with mph := p, sampOut := s.sampOut ++ samples, responses := s.responses ++ [.ok a] }

theorem afterDemod_quiet (d : Demod) (a : Half) (s : State) :
    afterDemod d 0 [] a s = { s with demod := d, responses := s.responses ++ [.ok a] } := by
  simp [afterDemod]

theorem afterPhase_silent (p : Word) (a : Half) (s : State) :
    afterPhase p [] a s = { s with mph := p, responses := s.responses ++ [.ok a] } := by
  simp [afterPhase]

/-- Sending bits is an operation on `MPH`, and its samples and phase come from the configuration and `MPH`. -/
theorem respond_transmit (bits : List Bool) (s : State) :
    respond (.ok 0) (transmit bits s) =
      afterPhase (sendBits s.cfg bits s.mph).2 (sendBits s.cfg bits s.mph).1 0 s := rfl

/-- An operation on the context does the same in every state of equal configuration and context. -/
theorem exec_demodOnly {i : Instr} {s : State} (h : demodOnly s.cfg i = true) :
    ∃ d m bytes a, ∀ u : State, u.cfg = s.cfg → u.demod = s.demod →
      exec i u = .next (afterDemod d m bytes a u) := by
  cases i with
  | dsamp x =>
    refine ⟨(demodSample s.cfg (u16 x) s.demod).1, (demodSample s.cfg (u16 x) s.demod).2.events,
      (demodSample s.cfg (u16 x) s.demod).2.bytes, 0, fun u hc hd => ?_⟩
    rw [exec_dsamp_eq, ← hc, ← hd]
    rfl
  | desync =>
    refine ⟨dropSync s.demod, if s.demod.synced = true then 4#4 else 0, [], 0, fun u _ hd => ?_⟩
    rw [desyncDropsByteSync.1, hd]
    cases s.demod.synced <;> simp [afterDemod, dropSync]
  | drst =>
    refine ⟨Demod.cleared s.cfg, 0, [], 0, fun u hc _ => ?_⟩
    rw [afterDemod_quiet, ← hc]
    rfl
  | rdr sel =>
    obtain ⟨r, hreg, hr⟩ : ∃ r, regOf s.cfg sel = some r ∧ contextReg r = true := (Option.any_eq_true ..).1 h
    refine ⟨s.demod, 0, [], regRead r s, fun u hc hd => ?_⟩
    rw [afterDemod_quiet, ← hd]
    exact exec_rdr_eq_answered (hc ▸ hreg) (regRead_context_congr hr hd)
  | wrr sel v =>
    obtain ⟨r, hreg, hr⟩ : ∃ r, regOf s.cfg sel = some r ∧ contextReg r = true := (Option.any_eq_true ..).1 h
    refine ⟨demodWrite s.cfg r v s.demod, 0, [], 0, fun u hc hd => ?_⟩
    rw [afterDemod_quiet, ← hc, ← hd]
    exact exec_wrr_eq_of_regWrite (hc ▸ hreg) (readOnly_of_contextReg hr) (regWrite_context hr v u)
  | _ => cases h

/-- An operation on `MPH` does the same in every state of equal configuration and `MPH`. -/
theorem exec_phaseOnly {j : Instr} {s : State} (h : phaseOnly s.cfg j = true) :
    ∃ p samples a, ∀ u : State, u.cfg = s.cfg → u.mph = s.mph → exec j u = .next (afterPhase p samples a u) := by
  have hsend (bits : Cfg → List Bool) : ∃ p samples a, ∀ u : State, u.cfg = s.cfg → u.mph = s.mph →
      respond (.ok 0) (transmit (bits u.cfg) u) = afterPhase p samples a u :=
    ⟨_, _, _, fun u hc hm => by rw [respond_transmit, hc, hm]⟩
  cases j with
  | mbit v =>
    obtain ⟨p, samples, a, hu⟩ := hsend fun _ => [v]
    exact ⟨p, samples, a, fun u hc hm => congrArg _ (hu u hc hm)⟩
  | mbyte b =>
    obtain ⟨p, samples, a, hu⟩ := hsend fun _ => wireBits b
    exact ⟨p, samples, a, fun u hc hm => congrArg _ (hu u hc hm)⟩
  | mpre n =>
    obtain ⟨p, samples, a, hu⟩ := hsend fun c => preambleBits c n
    exact ⟨p, samples, a, fun u hc hm => congrArg _ (hu u hc hm)⟩
  | msil n => exact ⟨0, List.replicate n 0, 0, fun u _ _ => rfl⟩
  | mrst =>
    refine ⟨0, [], 0, fun u _ _ => ?_⟩
    rw [afterPhase_silent]
    rfl
  | rdr sel =>
    obtain ⟨r, hreg, hr⟩ : ∃ r, regOf s.cfg sel = some r ∧ phaseReg r = true := (Option.any_eq_true ..).1 h
    refine ⟨s.mph, [], regRead r s, fun u hc hm => ?_⟩
    rw [afterPhase_silent, ← hm]
    exact exec_rdr_eq_answered (hc ▸ hreg) (regRead_phase_congr hr hm)
  | wrr sel v =>
    obtain ⟨r, hreg, hr⟩ : ∃ r, regOf s.cfg sel = some r ∧ phaseReg r = true := (Option.any_eq_true ..).1 h
    refine ⟨mphWrite r v s.mph, [], 0, fun u hc hm => ?_⟩
    rw [afterPhase_silent, ← hm]
    exact exec_wrr_eq_of_regWrite (hc ▸ hreg) (readOnly_of_phaseReg hr) (regWrite_phase hr v u)
  | _ => cases h

/-- Settles O52: each operation keeps what the other reads, and the two write different fields. -/
theorem demodAndModOperationsCommute : Obligations.DemodAndModOperationsCommute := by
  intro i j s hi hj
  obtain ⟨d, m, bytes, di, hdi⟩ := exec_demodOnly hi
  obtain ⟨p, samples, dj, hdj⟩ := exec_phaseOnly hj
  refine ⟨{ s with demod := d, evt := s.evt ||| m, byteOut := s.byteOut ++ bytes, mph := p,
                   sampOut := s.sampOut ++ samples }, di, dj, ?_, ?_⟩
  · rw [execAll_cons (hdi s rfl rfl), execAll_cons (hdj (afterDemod d m bytes di s) rfl rfl)]
    simp [execAll, afterDemod, afterPhase]
  · rw [execAll_cons (hdj s rfl rfl), execAll_cons (hdi (afterPhase p samples dj s) rfl rfl)]
    simp [execAll, afterDemod, afterPhase]

end Sys2Proof.Machine
end

section
/-! SUPPORT. The range of the samples (42_modulator.md R161), the tables of profile `P0` (10_state.md R40, R41), and the
sync byte across two characters (70_reset_and_hazards.md R210). -/

namespace Sys2Proof

/-! ### The tables of profile `P0` -/

/-- Settles O54: the sums over the tables, evaluated. -/
theorem profileTablesPassTheirChecks : Obligations.ProfileTablesPassTheirChecks :=
  ⟨Machine.P0_wf, by decide +kernel⟩

/-- Settles O55: the second half of the table is the first one negated, and the first half is its own mirror image,
entry by entry. -/
theorem sineTableSymmetries : Obligations.SineTableSymmetries :=
  ⟨by decide +kernel, by decide +kernel, by decide +kernel⟩

end Sys2Proof

namespace Sys2Proof.Machine

/-! ### The range of a sample (42_modulator.md R161) -/

/-- An entry of a legal sine table is at most 32767 in magnitude (00_scope.md R8). -/
theorem sinlut_bounds {c : Cfg} (hc : c.wf = true) (p : Word) :
    -32767 ≤ c.sinlut.getD (ncoIndex p) 0 ∧ c.sinlut.getD (ncoIndex p) 0 ≤ 32767 := by
  obtain ⟨_, _, _, _, _, _, hlen, hall⟩ := Cfg.wf_mod hc
  have hi : ncoIndex p < c.sinlut.length := hlen ▸ (p.extractLsb' 24 8).isLt
  rw [List.getD_eq_getElem _ _ hi]
  exact hall _ (List.getElem_mem hi)

/-- A sample value lies between the floors at the ends of the table (42_modulator.md R161). -/
theorem ncoValue_bounds {c : Cfg} (hc : c.wf = true) (p : Word) :
    (c.amp : Int) * -32767 / 32768 ≤ ncoValue c p ∧ ncoValue c p ≤ (c.amp : Int) * 32767 / 32768 := by
  obtain ⟨hlo, hhi⟩ := sinlut_bounds hc p
  have hamp : (0 : Int) ≤ c.amp := Int.natCast_nonneg _
  exact ⟨Int.ediv_le_ediv (by decide) (Int.mul_le_mul_of_nonneg_left hlo hamp),
    Int.ediv_le_ediv (by decide) (Int.mul_le_mul_of_nonneg_left hhi hamp)⟩

/-- Settles O44: the floors are in 16 bits because `AMP` is. -/
theorem samplesFitSixteenBits : Obligations.SamplesFitSixteenBits := by
  intro c p hc
  obtain ⟨_, _, _, _, _, hamp, _, _⟩ := Cfg.wf_mod hc
  obtain ⟨hlo, hhi⟩ := ncoValue_bounds hc p
  refine ⟨BitVec.toInt_ofInt_eq_self (by decide) ?_ ?_, ?_, ?_⟩
  · show -32768 ≤ ncoValue c p
    omega
  · show ncoValue c p < 32768
    omega
  · rwa [Int.fdiv_eq_ediv_of_nonneg _ (by decide)]
  · rwa [Int.fdiv_eq_ediv_of_nonneg _ (by decide)]

/-! ### False sync across two characters (70_reset_and_hazards.md R210) -/

/-- Eight wire bits from bit `k` of a byte are the last bits of it and the first ones of the next. -/
theorem window_wireBits_iff (a b w : Byte) {k : Nat} (hk : k < 8) :
    ((wireBits a ++ wireBits b).drop k).take 8 = wireBits w ↔
      (wireBits a).drop k = (wireBits w).take (8 - k) ∧ (wireBits b).take k = (wireBits w).drop (8 - k) := by
  have hlenA : ((wireBits a).drop k).length = 8 - k := by simp
  have hlenW : ((wireBits w).take (8 - k)).length = 8 - k := by simp
  have hrest : 8 - (8 - k) = k := by omega
  have hsplit : ((wireBits a ++ wireBits b).drop k).take 8 = (wireBits a).drop k ++ (wireBits b).take k := by
    rw [List.drop_append_of_le_length hk.le, List.take_append, List.take_of_length_le (by omega), hlenA, hrest]
  rw [hsplit]
  constructor
  · intro h
    exact List.append_inj (h.trans (List.take_append_drop (8 - k) _).symm) (hlenA.trans hlenW.symm)
  · rintro ⟨ha, hb⟩
    rw [ha, hb, List.take_append_drop]

/-- The last bits of a 7-bit character that begin the sync byte: bit 7 is 0, and so only three positions can. -/
theorem drop_wireBits_sync_iff : ∀ a : Byte, a.toNat < 128 → ∀ k < 8,
    ((wireBits a).drop k = (wireBits 0xAB).take (8 - k) ↔
      (k = 1 ∧ (a = 0x56 ∨ a = 0x57)) ∨ (k = 3 ∧ 0x58 ≤ a.toNat ∧ a.toNat ≤ 0x5F) ∨
        (k = 5 ∧ 0x60 ≤ a.toNat)) := by
  decide +kernel

/-- The first `k` bits of a 7-bit character that end the sync byte, at the three positions. -/
theorem take_wireBits_sync_iff : ∀ b : Byte, b.toNat < 128 →
    ((wireBits b).take 1 = (wireBits 0xAB).drop 7 ↔ b.getLsbD 0 = true) ∧
    ((wireBits b).take 3 = (wireBits 0xAB).drop 5 ↔ b.toNat % 8 = 5) ∧
    ((wireBits b).take 5 = (wireBits 0xAB).drop 3 ↔ b = 0x15 ∨ b = 0x35 ∨ b = 0x55 ∨ b = 0x75) := by
  decide +kernel

/-- Settles O53: the window's two parts, each a condition on one character. -/
theorem falseSyncAcrossTwoCharacters : Obligations.FalseSyncAcrossTwoCharacters := by
  intro a b k ha hb hk
  obtain ⟨hb1, hb3, hb5⟩ := take_wireBits_sync_iff b hb
  rw [window_wireBits_iff a b 0xAB hk, drop_wireBits_sync_iff a ha k hk]
  constructor
  · rintro ⟨⟨rfl, h⟩ | ⟨rfl, h⟩ | ⟨rfl, h⟩, hw⟩
    · exact .inl ⟨rfl, h, hb1.1 hw⟩
    · exact .inr (.inl ⟨rfl, h.1, h.2, hb3.1 hw⟩)
    · exact .inr (.inr ⟨rfl, h, hb5.1 hw⟩)
  · rintro (⟨rfl, h, hw⟩ | ⟨rfl, h, h', hw⟩ | ⟨rfl, h, hw⟩)
    · exact ⟨.inl ⟨rfl, h⟩, hb1.2 hw⟩
    · exact ⟨.inr (.inl ⟨rfl, h, h'⟩), hb3.2 hw⟩
    · exact ⟨.inr (.inr ⟨rfl, h⟩), hb5.2 hw⟩

end Sys2Proof.Machine
end
